-- ==== Sys2Proof/Word.lean ====
section
/-! DEFINITION. The words of the FXU: the command word, the ports, the register, precision and digit-count
fields, and the two register banks (00_scope.md R6, 10_state.md R21, R22, 30_encoding.md R66). -/

namespace Sys2Proof

/-- A command word (R65): 32 bits. -/
abbrev CommandWord := BitVec 32

/-- A value on one of the data ports `IN0`, `IN1`, `IN2`, and of the result register `Y` (R13, R27): 64 bits. -/
abbrev PortWord := BitVec 64

/-- A register field `rd`, `ra` or `rb` (R71): every value names a register. -/
abbrev RegIndex := BitVec 3

/-- A precision, the field `.q` of a register or the immediate `q` of a command (R22, R72). -/
abbrev Precision := BitVec 6

/-- A decimal digit count, the field `.qd` of a register (R22). -/
abbrev DigitCount := BitVec 4

/-- The two register banks (R21): bank W holds 32-bit numbers, bank L 64-bit ones. -/
inductive Bank where
  | W
  | L
deriving DecidableEq, Repr

end Sys2Proof
end

