-- ==== Sys2Proof/Config.lean ====
section
/-! DEFINITION. The implementation parameters of the FXU at the values every rule of the spec uses (00_scope.md R5).
The parameters the spec leaves open (`DIVROUND`, `FRND`, `REMMINNEG`, `QD`) are taken at their defaults where they
are used, in the files of Machine/ (DESIGN CHOICE, unsafe: log 10). -/

namespace Sys2Proof

/-- `N`, the native width of a bank (R5, R21). -/
abbrev Bank.width : Bank → Nat
  | .W => 32
  | .L => 64

/-- `2N`, the width of the intermediates of `MUL` and `DIV` (R5, D9). No rule stores one (R124). -/
abbrev Bank.wideWidth (b : Bank) : Nat := 2 * b.width

/-- `QMAX = N - 1`, the largest precision of a bank (R5). -/
abbrev Bank.maxPrecision (b : Bank) : Nat := b.width - 1

/-- `QDMAX`, the cap of the decimal digit count (R5, R51). -/
abbrev maxDigits : Nat := 9

/-- `NREG`, the number of registers of a bank (R5, D3; log 10). -/
abbrev registersPerBank : Nat := 8

/-- A binary floating-point format: `width` bits in all, `significant` bits of significand with the hidden one
(the `p` of R163), exponent bias `bias`. -/
structure FloatFormat where
  width : Nat
  significant : Nat
  bias : Nat
deriving DecidableEq, Repr

/-- binary64 (R95, R163). PRESUMED by the spec itself (G1), unsafe: log 13. -/
abbrev binary64 : FloatFormat := { width := 64, significant := 53, bias := 1023 }

/-- binary32 (R163). PRESUMED by the spec itself (G1), unsafe: log 13. -/
abbrev binary32 : FloatFormat := { width := 32, significant := 24, bias := 127 }

end Sys2Proof
end

