-- ==== Sys2Proof/Syntax.lean ====
section
/-! DEFINITION. The commands of FXU-1 as syntax: one constructor per row of spec/opcode_table.json
(30_encoding.md R69). The fields are those of the command's format (R67), `b` standing for the bit `W`; the port
values a command reads are no part of its word (R78). The pseudo-instructions (R80) are other spellings of words of
these commands, and have no constructor. -/

namespace Sys2Proof

inductive Instr where
  /-- `NOP`, format Z (R181). -/
  | nop
  /-- `CLROVF`, format Z (R182). -/
  | clrovf
  /-- `MOV.S rd, ra`, format M (R183). -/
  | mov (b : Bank) (rd ra : RegIndex)
  /-- `FROMINT.S rd, q, IN0=i`, format C (R92). -/
  | fromint (b : Bank) (rd : RegIndex) (q : Precision)
  /-- `FROMFRAC.S rd, q, IN0=ip, IN1=fn, IN2=fd`, format C (R93). -/
  | fromfrac (b : Bank) (rd : RegIndex) (q : Precision)
  /-- `FROMF64.S rd, q, IN0=bits`, format C (R94). -/
  | fromf64 (b : Bank) (rd : RegIndex) (q : Precision)
  /-- `ADD.S rd, ra, rb`, format A (R112). -/
  | add (b : Bank) (rd ra rb : RegIndex)
  /-- `SUB.S rd, ra, rb`, format A (R113). -/
  | sub (b : Bank) (rd ra rb : RegIndex)
  /-- `MUL.S rd, ra, rb`, format A (R115). -/
  | mul (b : Bank) (rd ra rb : RegIndex)
  /-- `DIV.S rd, ra, rb`, format A (R116). -/
  | div (b : Bank) (rd ra rb : RegIndex)
  /-- `REM.S rd, ra, rb`, format A (R114). -/
  | rem (b : Bank) (rd ra rb : RegIndex)
  /-- `EQ.S ra, rb`, format P (R142). -/
  | eq (b : Bank) (ra rb : RegIndex)
  /-- `NE.S ra, rb`, format P (R143). -/
  | ne (b : Bank) (ra rb : RegIndex)
  /-- `LT.S ra, rb`, format P (R144). -/
  | lt (b : Bank) (ra rb : RegIndex)
  /-- `GT.S ra, rb`, format P (R145). -/
  | gt (b : Bank) (ra rb : RegIndex)
  /-- `LE.S ra, rb`, format P (R146). -/
  | le (b : Bank) (ra rb : RegIndex)
  /-- `GE.S ra, rb`, format P (R147). -/
  | ge (b : Bank) (ra rb : RegIndex)
  /-- `TOINT.S ra`, format V (R157). -/
  | toint (b : Bank) (ra : RegIndex)
  /-- `FRAC.S ra`, format V (R158). -/
  | frac (b : Bank) (ra : RegIndex)
  /-- `FRACDIV.S ra`, format V (R159). -/
  | fracdiv (b : Bank) (ra : RegIndex)
  /-- `TOF32.S ra`, format V (R162). -/
  | tof32 (b : Bank) (ra : RegIndex)
  /-- `TOF64.S ra`, format V (R161). -/
  | tof64 (b : Bank) (ra : RegIndex)
deriving DecidableEq, Repr

end Sys2Proof
end

