-- ==== Sys2Proof/WellFormed.lean ====
section
/-! DEFINITION. What the types of `Instr` do not say about a command that may run: the precision of a construction is
at most `QMAX` of its bank (30_encoding.md R75). The widths of the register and precision fields are in their types,
so every `Instr` has a word; one that is not well-formed is a legal word whose command raises `PrecisionOutOfRange`
(R198), see `Sys2Proof.Machine.withPrecision`. -/

namespace Sys2Proof

/-- R75: `u(q) <= QMAX` for a command of format C; every other command is well-formed as it stands. -/
def Instr.wellFormed : Instr → Bool
  | .nop => true
  | .clrovf => true
  | .mov _ _ _ => true
  | .fromint b _ q => decide (q.toNat ≤ b.maxPrecision)
  | .fromfrac b _ q => decide (q.toNat ≤ b.maxPrecision)
  | .fromf64 b _ q => decide (q.toNat ≤ b.maxPrecision)
  | .add _ _ _ _ => true
  | .sub _ _ _ _ => true
  | .mul _ _ _ _ => true
  | .div _ _ _ _ => true
  | .rem _ _ _ _ => true
  | .eq _ _ _ => true
  | .ne _ _ _ => true
  | .lt _ _ _ => true
  | .gt _ _ _ => true
  | .le _ _ _ => true
  | .ge _ _ _ => true
  | .toint _ _ => true
  | .frac _ _ => true
  | .fracdiv _ _ => true
  | .tof32 _ _ => true
  | .tof64 _ _ => true

end Sys2Proof
end

