-- ==== Sys2Proof/Decode.lean ====
section
/-! DEFINITION. The command encoding FXU-1 (30_encoding.md): the fields of a word (R66, R68), the six formats and their
unused fields (R67, R70), the opcode map (R69), the decoder (R74 step 3, total, rejecting by name), the encoder, and
the rows of spec/opcode_table.json (R81). -/

namespace Sys2Proof

/-- The fields of a command word (R66), at the positions every format shares. -/
structure Fields where
  op : BitVec 6
  w : BitVec 1
  rd : RegIndex
  ra : RegIndex
  rb : RegIndex
  q : Precision
  z : BitVec 10
deriving DecidableEq, Repr

/-- R66: the fields of a word, by their bit positions. -/
def fieldsOf (c : CommandWord) : Fields where
  op := c.extractLsb' 26 6
  w := c.extractLsb' 25 1
  rd := c.extractLsb' 22 3
  ra := c.extractLsb' 19 3
  rb := c.extractLsb' 16 3
  q := c.extractLsb' 10 6
  z := c.extractLsb' 0 10

/-- R68: the word `(op, W, rd, ra, rb, q, z)`, the first field in the highest bits. -/
def assemble (f : Fields) : CommandWord :=
  f.op ++ f.w ++ f.rd ++ f.ra ++ f.rb ++ f.q ++ f.z

/-- R21: `W = 0` selects bank W, `W = 1` bank L. -/
def Fields.bank (f : Fields) : Bank := if f.w = 0#1 then .W else .L

/-- The bit `W` of a bank (R21). -/
def Bank.bit : Bank → BitVec 1
  | .W => 0#1
  | .L => 1#1

/-- The six formats (R67). -/
inductive Format where
  | Z
  | M
  | C
  | A
  | P
  | V
deriving DecidableEq, Repr

/-- R67, R70: the fields a format does not use are zero (`z`, unused by all of them, apart). -/
def Format.unusedZero : Format → Fields → Bool
  | .Z, f => f.w == 0#1 && f.rd == 0#3 && f.ra == 0#3 && f.rb == 0#3 && f.q == 0#6
  | .M, f => f.rb == 0#3 && f.q == 0#6
  | .C, f => f.ra == 0#3 && f.rb == 0#3
  | .A, f => f.q == 0#6
  | .P, f => f.rd == 0#3 && f.q == 0#6
  | .V, f => f.rd == 0#3 && f.rb == 0#3 && f.q == 0#6

/-- Why a word is illegal (R76). Every one of them is `IllegalCommand` to the FXU (R193). -/
inductive Reject where
  /-- The `op` field is none of the 22 opcodes of R69. -/
  | reservedOpcode
  /-- The reserved bits `z` are not zero. -/
  | reservedBits
  /-- A field the format of the opcode does not use is not zero. -/
  | unusedField
deriving DecidableEq, Repr

/-- R70: a known opcode is accepted when `z` and every unused field of its format are zero. -/
def Fields.accept (f : Fields) (fmt : Format) (i : Instr) : Except Reject Instr :=
  if f.z ≠ 0#10 then .error .reservedBits
  else if fmt.unusedZero f then .ok i
  else .error .unusedField

/-- R69, R74 step 3: the command of the fields of a word. -/
def decodeFields (f : Fields) : Except Reject Instr :=
  match f.op with
  | 0x01#6 => f.accept .Z .nop
  | 0x02#6 => f.accept .Z .clrovf
  | 0x03#6 => f.accept .M (.mov f.bank f.rd f.ra)
  | 0x08#6 => f.accept .C (.fromint f.bank f.rd f.q)
  | 0x09#6 => f.accept .C (.fromfrac f.bank f.rd f.q)
  | 0x0A#6 => f.accept .C (.fromf64 f.bank f.rd f.q)
  | 0x10#6 => f.accept .A (.add f.bank f.rd f.ra f.rb)
  | 0x11#6 => f.accept .A (.sub f.bank f.rd f.ra f.rb)
  | 0x12#6 => f.accept .A (.mul f.bank f.rd f.ra f.rb)
  | 0x13#6 => f.accept .A (.div f.bank f.rd f.ra f.rb)
  | 0x14#6 => f.accept .A (.rem f.bank f.rd f.ra f.rb)
  | 0x18#6 => f.accept .P (.eq f.bank f.ra f.rb)
  | 0x19#6 => f.accept .P (.ne f.bank f.ra f.rb)
  | 0x1A#6 => f.accept .P (.lt f.bank f.ra f.rb)
  | 0x1B#6 => f.accept .P (.gt f.bank f.ra f.rb)
  | 0x1C#6 => f.accept .P (.le f.bank f.ra f.rb)
  | 0x1D#6 => f.accept .P (.ge f.bank f.ra f.rb)
  | 0x20#6 => f.accept .V (.toint f.bank f.ra)
  | 0x21#6 => f.accept .V (.frac f.bank f.ra)
  | 0x22#6 => f.accept .V (.fracdiv f.bank f.ra)
  | 0x23#6 => f.accept .V (.tof32 f.bank f.ra)
  | 0x24#6 => f.accept .V (.tof64 f.bank f.ra)
  | _ => .error .reservedOpcode

/-- R74: the decoder. It is total: a word selects one command with all its fields, or is illegal (R76). -/
def decode (c : CommandWord) : Except Reject Instr := decodeFields (fieldsOf c)

/-- The fields of the word of a command, the unused ones zero (R67, R69, R70). -/
def encodeFields : Instr → Fields
  | .nop => ⟨0x01, 0, 0, 0, 0, 0, 0⟩
  | .clrovf => ⟨0x02, 0, 0, 0, 0, 0, 0⟩
  | .mov b rd ra => ⟨0x03, b.bit, rd, ra, 0, 0, 0⟩
  | .fromint b rd q => ⟨0x08, b.bit, rd, 0, 0, q, 0⟩
  | .fromfrac b rd q => ⟨0x09, b.bit, rd, 0, 0, q, 0⟩
  | .fromf64 b rd q => ⟨0x0A, b.bit, rd, 0, 0, q, 0⟩
  | .add b rd ra rb => ⟨0x10, b.bit, rd, ra, rb, 0, 0⟩
  | .sub b rd ra rb => ⟨0x11, b.bit, rd, ra, rb, 0, 0⟩
  | .mul b rd ra rb => ⟨0x12, b.bit, rd, ra, rb, 0, 0⟩
  | .div b rd ra rb => ⟨0x13, b.bit, rd, ra, rb, 0, 0⟩
  | .rem b rd ra rb => ⟨0x14, b.bit, rd, ra, rb, 0, 0⟩
  | .eq b ra rb => ⟨0x18, b.bit, 0, ra, rb, 0, 0⟩
  | .ne b ra rb => ⟨0x19, b.bit, 0, ra, rb, 0, 0⟩
  | .lt b ra rb => ⟨0x1A, b.bit, 0, ra, rb, 0, 0⟩
  | .gt b ra rb => ⟨0x1B, b.bit, 0, ra, rb, 0, 0⟩
  | .le b ra rb => ⟨0x1C, b.bit, 0, ra, rb, 0, 0⟩
  | .ge b ra rb => ⟨0x1D, b.bit, 0, ra, rb, 0, 0⟩
  | .toint b ra => ⟨0x20, b.bit, 0, ra, 0, 0, 0⟩
  | .frac b ra => ⟨0x21, b.bit, 0, ra, 0, 0, 0⟩
  | .fracdiv b ra => ⟨0x22, b.bit, 0, ra, 0, 0, 0⟩
  | .tof32 b ra => ⟨0x23, b.bit, 0, ra, 0, 0, 0⟩
  | .tof64 b ra => ⟨0x24, b.bit, 0, ra, 0, 0, 0⟩

/-- The command word of a command (R68). -/
def encode (i : Instr) : CommandWord := assemble (encodeFields i)

/-- A row of spec/opcode_table.json: a word `c` selects it when `(c AND mask) = pattern` (R81). -/
structure OpcodeRow where
  mnemonic : String
  mask : CommandWord
  pattern : CommandWord
deriving DecidableEq, Repr

/-- R81: the word selects the row. -/
def OpcodeRow.selects (row : OpcodeRow) (c : CommandWord) : Bool := c &&& row.mask == row.pattern

/-- The row of a command in spec/opcode_table.json, its `mask` and `match` columns copied from there (R67, R81). The
decoder does not use it. -/
def Instr.row : Instr → OpcodeRow
  | .nop => ⟨"NOP", 0xFFFFFFFF, 0x04000000⟩
  | .clrovf => ⟨"CLROVF", 0xFFFFFFFF, 0x08000000⟩
  | .mov _ _ _ => ⟨"MOV", 0xFC07FFFF, 0x0C000000⟩
  | .fromint _ _ _ => ⟨"FROMINT", 0xFC3F03FF, 0x20000000⟩
  | .fromfrac _ _ _ => ⟨"FROMFRAC", 0xFC3F03FF, 0x24000000⟩
  | .fromf64 _ _ _ => ⟨"FROMF64", 0xFC3F03FF, 0x28000000⟩
  | .add _ _ _ _ => ⟨"ADD", 0xFC00FFFF, 0x40000000⟩
  | .sub _ _ _ _ => ⟨"SUB", 0xFC00FFFF, 0x44000000⟩
  | .mul _ _ _ _ => ⟨"MUL", 0xFC00FFFF, 0x48000000⟩
  | .div _ _ _ _ => ⟨"DIV", 0xFC00FFFF, 0x4C000000⟩
  | .rem _ _ _ _ => ⟨"REM", 0xFC00FFFF, 0x50000000⟩
  | .eq _ _ _ => ⟨"EQ", 0xFDC0FFFF, 0x60000000⟩
  | .ne _ _ _ => ⟨"NE", 0xFDC0FFFF, 0x64000000⟩
  | .lt _ _ _ => ⟨"LT", 0xFDC0FFFF, 0x68000000⟩
  | .gt _ _ _ => ⟨"GT", 0xFDC0FFFF, 0x6C000000⟩
  | .le _ _ _ => ⟨"LE", 0xFDC0FFFF, 0x70000000⟩
  | .ge _ _ _ => ⟨"GE", 0xFDC0FFFF, 0x74000000⟩
  | .toint _ _ => ⟨"TOINT", 0xFDC7FFFF, 0x80000000⟩
  | .frac _ _ => ⟨"FRAC", 0xFDC7FFFF, 0x84000000⟩
  | .fracdiv _ _ => ⟨"FRACDIV", 0xFDC7FFFF, 0x88000000⟩
  | .tof32 _ _ => ⟨"TOF32", 0xFDC7FFFF, 0x8C000000⟩
  | .tof64 _ _ => ⟨"TOF64", 0xFDC7FFFF, 0x90000000⟩

/-- The command word whose low `nbits` bits are those of `w` and whose other bits are zero. A command word arrives
whole, so no byte order is involved (R54). -/
def tableWord (nbits w : Nat) : CommandWord := BitVec.ofNat 32 (w % 2 ^ nbits)

/-- The command the decoder reads from a word numbered as spec/opcode_table.json numbers its bits. -/
def decodeTableWord (nbits w : Nat) : Option Instr := (decode (tableWord nbits w)).toOption

end Sys2Proof
end

