-- ==== Sys2Proof/Machine/Integer.lean ====
section
/-! DEFINITION. The arithmetic every rule computes with: unbounded integers, and the way back to bit vectors
(00_scope.md R6, R8, R9). -/

namespace Sys2Proof.Machine

/-- `asr(z, s)`, the arithmetic right shift: `floor(z / 2^s)` (R8). Lean's integer `/` by a positive divisor is the
floor. -/
def asr (z : Int) (s : Nat) : Int := z / 2 ^ s

/-- `shl(z, s)`: `z * 2^s`, unbounded (R8). -/
def shl (z : Int) (s : Nat) : Int := z * 2 ^ s

/-- `tdiv(x, y)`, the quotient toward zero (R9). Called with `y ≠ 0` only. `DIVROUND` at its default: log 10. -/
def tdiv (x y : Int) : Int := x.sign * y.sign * ((x.natAbs / y.natAbs : Nat) : Int)

/-- `trem(x, y) = x - y * tdiv(x, y)` (R9). `REMMINNEG` at its default, the mathematical remainder: log 10. -/
def trem (x y : Int) : Int := x - y * tdiv x y

/-- `wrap_n(z)`: the `n`-bit vector equal to `z` modulo `2^n` (R6). -/
def wrap (n : Nat) (z : Int) : BitVec n := BitVec.ofInt n z

/-- `inrange_n(z)`: `-2^(n-1) <= z <= 2^(n-1) - 1` (R6). -/
abbrev InRange (n : Nat) (z : Int) : Prop := -(2 : Int) ^ (n - 1) ≤ z ∧ z ≤ (2 : Int) ^ (n - 1) - 1

end Sys2Proof.Machine
end

