-- ==== Sys2Proof/Machine/State.lean ====
section
/-! DEFINITION. The state of the FXU (10_state.md R20 to R36), as plain data, and the state after `Reset`. The fields
`port` and `events` are the model's own: they stand for the host's side of the interface (00_scope.md R13). -/

namespace Sys2Proof.Machine

/-- A number register of a bank of width `n` (R22). -/
structure NumReg (n : Nat) where
  /-- `.raw`, the number scaled by `2^q`, two's complement (R7, R22). -/
  raw : BitVec n
  /-- `.q`, the count of fractional bits (R22). -/
  q : Precision
  /-- `.qd`, the cached count of decimal digits, `QD(.q)` in a constructed register (R22, R23). -/
  qd : DigitCount
  /-- `.v`, the register is constructed (R24). -/
  v : Bool
deriving DecidableEq, Repr

/-- The fields of the register `STATUS` (R29). Its bits 31:6 are never written and read as 0; the 32-bit word the host
observes is `Sys2Proof.Machine.Status.word`. DESIGN CHOICE, safe: log 9. -/
structure Status where
  /-- `FAULT`, bit 0: the FXU is in the fault state (R31, R197). -/
  fault : Bool
  /-- `CAUSE`, bits 3:1: the code of the fault, 0 while there is none (R31, R191). -/
  cause : BitVec 3
  /-- `OVF`, bit 4: the sticky overflow flag (R30). -/
  ovf : Bool
  /-- `YV`, bit 5: `Y` holds a value (R28). -/
  yv : Bool
deriving DecidableEq, Repr

/-- What a `Command` event delivers: the word and the values on the three data ports (R13). -/
structure Command where
  word : CommandWord
  in0 : PortWord
  in1 : PortWord
  in2 : PortWord
deriving DecidableEq, Repr

/-- The two kinds of event the host issues (R13). -/
inductive Event where
  | reset
  | command (c : Command)
deriving DecidableEq, Repr

/-- The whole state of the FXU (R20), and the host's side of the interface. -/
structure State where
  /-- `w0 .. w7` (R21, R22). -/
  bankW : Vector (NumReg 32) registersPerBank
  /-- `l0 .. l7` (R21, R22). -/
  bankL : Vector (NumReg 64) registersPerBank
  /-- `Y`, the result register (R27). -/
  y : PortWord
  /-- `STATUS` (R29). -/
  status : Status
  /-- `FCMD`, the word of the command that faulted (R32). -/
  fcmd : CommandWord
  /-- The model's own: the inputs `cmd`, `IN0`, `IN1`, `IN2` of the command being performed (R11, R13). No rule reads
  them once it is over. DESIGN CHOICE, safe: log 3. -/
  port : Command
  /-- The model's own: the events the host has yet to issue, the next one first (R13, R33, R221). DESIGN CHOICE, safe:
  log 1. -/
  events : List Event
deriving DecidableEq, Repr

/-- No constructor: nothing in the spec stops the FXU. Its own faults are state it goes on from (R196, R197, R202), and
a step takes them as next states (DEDUCED, safe: log 8). -/
inductive Fault where
deriving DecidableEq, Repr

/-- Why the model gives a command no meaning. -/
inductive Refusal where
  /-- Raised by `exec` for an instruction that has no meaning yet; safe. No instruction is refused so. -/
  | notModelled (mnemonic : String)
deriving DecidableEq, Repr

/-- An unconstructed register after `Reset` (R36). Its `.raw`, `.q` and `.qd` are unspecified there and no rule reads
them (R24); zero is a DESIGN CHOICE, unsafe: log 4. -/
def NumReg.unconstructed (n : Nat) : NumReg n where
  raw := 0
  q := 0
  qd := 0
  v := false

/-- `STATUS` after `Reset`: 0 (R36, R215). -/
def Status.reset : Status where
  fault := false
  cause := 0
  ovf := false
  yv := false

/-- The state right after `Reset` (R36, R215): every register unconstructed, `STATUS` 0. `Y` and `FCMD` are unspecified
there; zero is a DESIGN CHOICE, unsafe: logs 5 and 6. The host has issued nothing (logs 1, 3). -/
def State.reset : State where
  bankW := Vector.replicate registersPerBank (NumReg.unconstructed 32)
  bankL := Vector.replicate registersPerBank (NumReg.unconstructed 64)
  y := 0
  status := Status.reset
  fcmd := 0
  port := { word := 0, in0 := 0, in1 := 0, in2 := 0 }
  events := []

end Sys2Proof.Machine
end

