-- ==== Sys2Proof/Machine/Flags.lean ====
section
/-! DEFINITION. The status register: its word, and the flag operations of the rules (10_state.md R29, R30;
00_scope.md R10). -/

namespace Sys2Proof.Machine

/-- The 32 bits of `STATUS` the host observes (R29). -/
def Status.word (f : Status) : BitVec 32 :=
  0#26 ++ BitVec.ofBool f.yv ++ BitVec.ofBool f.ovf ++ f.cause ++ BitVec.ofBool f.fault

/-- The overflow check of a result `z` stored in `n` bits (R10): `OVF` is set when `z` is out of range, and left as it
was when it is not. -/
def State.checkOverflow (s : State) (n : Nat) (z : Int) : State :=
  if InRange n z then s else { s with status := { s.status with ovf := true } }

/-- `STATUS.OVF <- 0` (R182). -/
def State.clearOverflow (s : State) : State := { s with status := { s.status with ovf := false } }

end Sys2Proof.Machine
end

