-- ==== Sys2Proof/Machine/Float.lean ====
section
/-! DEFINITION. The floating-point formats at the ports: binary64 in (40_construction.md R94, R95), binary64 and binary32
out (43_conversion.md R163). Everything is an exact computation on integers. -/

namespace Sys2Proof.Machine

/-- The value of a binary64 pattern (R95): a finite one is `(-1)^neg * mag * 2^exp`. -/
inductive FloatValue where
  | nan
  | infinite (neg : Bool)
  | finite (neg : Bool) (mag : Nat) (exp : Int)
deriving DecidableEq, Repr

/-- R95: the value of the 64 bits of a binary64 number. -/
def readFloat64 (bits : BitVec 64) : FloatValue :=
  let sign := bits.getLsbD 63
  let e := (bits.extractLsb' 52 11).toNat
  let f := (bits.extractLsb' 0 52).toNat
  if e = 2047 then (if f = 0 then .infinite sign else .nan)
  else if e = 0 then .finite sign f (-1074)
  else .finite sign (2 ^ 52 + f) (e - 1075)

/-- `floor(mag * 2^k)`, exactly. -/
def scaleDown (mag : Nat) (k : Int) : Nat :=
  if 0 ≤ k then mag * 2 ^ k.toNat else mag / 2 ^ (-k).toNat

/-- `trunc(d * 2^q)` of a finite `d`, toward zero (R94): the magnitude is rounded down, then the sign is given back. -/
def truncScaled (neg : Bool) (mag : Nat) (exp : Int) (q : Nat) : Int :=
  let m : Int := scaleDown mag (exp + q)
  if neg then -m else m

/-- `num / 2^s` rounded to an integer, to nearest and a tie to even: `FRND` at its default (R163; DESIGN CHOICE of the
spec, unsafe: log 10). -/
def roundTiesEven (num s : Nat) : Nat :=
  let floor := num / 2 ^ s
  let twice := 2 * (num % 2 ^ s)
  if 2 ^ s < twice ∨ (twice = 2 ^ s ∧ floor % 2 = 1) then floor + 1 else floor

/-- The bits of a nonzero number of the given sign, exponent `e` (not yet biased) and significand `m` with
`2^(p-1) <= m < 2^p` (R163). -/
def packFloat (F : FloatFormat) (neg : Bool) (e : Int) (m : Nat) : BitVec F.width :=
  let sign := if neg then 2 ^ (F.width - 1) else 0
  BitVec.ofNat F.width
    (sign + (e + F.bias).toNat * 2 ^ (F.significant - 1) + (m - 2 ^ (F.significant - 1)))

/-- `fround_P(raw / 2^q)` (R163): the exact quotient rounded once. With `L = floor(log2 |raw|)` the exponent is
`E = L - q` and the significand `|raw| * 2^(p-1-L)`, which is an integer when `L < p`. -/
def fround (F : FloatFormat) (raw : Int) (q : Nat) : BitVec F.width :=
  let mag := raw.natAbs
  if mag = 0 then 0
  else
    let L := mag.log2
    let p := F.significant
    let m := if L < p then mag * 2 ^ (p - 1 - L) else roundTiesEven mag (L - (p - 1))
    let E : Int := (L : Int) - q
    if m = 2 ^ p then packFloat F (decide (raw < 0)) (E + 1) (2 ^ (p - 1))
    else packFloat F (decide (raw < 0)) E m

end Sys2Proof.Machine
end

