-- ==== Sys2Proof/Machine/Tables.lean ====
section
/-! DEFINITION. The two constant tables (20_memory.md R51 to R53). They are no state: nothing writes them. -/

namespace Sys2Proof.Machine

/-- The entries of the `QD` table for the precisions 0 to 31, as the spec lists them (R51). -/
def digitTable : List Nat :=
  [0, 0, 1, 1, 1, 2, 2, 2, 2, 3, 3, 3, 4, 4, 4, 5] ++
  [5, 5, 5, 6, 6, 6, 7, 7, 7, 8, 8, 8, 8, 9, 9, 9]

/-- `QD(q)`: the decimal digit count of a precision; 9 from 32 on (R51). -/
def QD (q : Precision) : DigitCount := BitVec.ofNat 4 (digitTable.getD q.toNat maxDigits)

/-- `P10(i) = 10^i` (R52). The table ends at index 9 and no rule reads above it in a register with `.qd = QD(.q)`;
that the model goes on by the same formula in other states is a DESIGN CHOICE, safe: log 15. -/
def P10 (i : Nat) : Nat := 10 ^ i

end Sys2Proof.Machine
end

