-- ==== Sys2Proof/Machine/Ops.lean ====
section
/-! DEFINITION. The operations over the registers that every rule uses (00_scope.md R11), fault entry (60_exceptions.md
R196), `Reset` (70_reset_and_hazards.md R215), and the host's side of the interface (00_scope.md R13). -/

namespace Sys2Proof.Machine

/-- The register `i` of bank `b`, constructed or not (R21). -/
def State.reg (s : State) (b : Bank) (i : RegIndex) : NumReg b.width :=
  match b with
  | .W => s.bankW[i.toFin]
  | .L => s.bankL[i.toFin]

/-- The state with the register `i` of bank `b` replaced; the banks do not alias (R21). -/
def State.setReg (s : State) (b : Bank) (i : RegIndex) (r : NumReg b.width) : State :=
  match b with
  | .W => { s with bankW := s.bankW.set i.toNat r i.isLt }
  | .L => { s with bankL := s.bankL.set i.toNat r i.isLt }

/-- `x[i] <- (raw, p)`, the only way a command changes a register: `.qd` and `.v` follow (R25). -/
def State.writeReg (s : State) (b : Bank) (i : RegIndex) (raw : BitVec b.width) (p : Precision) : State :=
  s.setReg b i { raw := raw, q := p, qd := QD p, v := true }

/-- `Y <- v`, which sets `STATUS.YV` (R28). -/
def State.writeY (s : State) (v : PortWord) : State :=
  { s with y := v, status := { s.status with yv := true } }

/-- The five faults (R191). -/
inductive Cause where
  | illegalCommand
  | precisionOutOfRange
  | unconstructed
  | divideByZero
  | floatRange
deriving DecidableEq, Repr

/-- The code of a fault in `STATUS.CAUSE` (R191). -/
def Cause.code : Cause → BitVec 3
  | .illegalCommand => 1
  | .precisionOutOfRange => 2
  | .unconstructed => 3
  | .divideByZero => 4
  | .floatRange => 5

/-- `raise F`, fault entry (R196): `FAULT`, `CAUSE` and `FCMD` are written and nothing else; control goes nowhere.
`FCMD` takes the word the host delivered (log 18). -/
def State.raise (s : State) (c : Cause) : State :=
  { s with status := { s.status with fault := true, cause := c.code }, fcmd := s.port.word }

/-- The `Reset` event (R215), the only way out of the fault state (R202): every piece of state takes its value after
reset, the unspecified ones the values of `State.reset` (DESIGN CHOICE, unsafe: log 7). `rest` are the events still to
come. -/
def State.takeReset (_s : State) (rest : List Event) : State := { State.reset with events := rest }

/-- A `Command` event is taken: its word and port values stand on the inputs (R13). -/
def State.deliver (s : State) (c : Command) (rest : List Event) : State := { s with port := c, events := rest }

/-- A `Command` event is taken and ignored (R197). -/
def State.discard (s : State) (rest : List Event) : State := { s with events := rest }

/-- The host issues the command of word `w` next, with the values its data ports hold now (R13; log 2). -/
def State.issue (s : State) (w : CommandWord) : State :=
  { s with events := .command { s.port with word := w } :: s.events }

end Sys2Proof.Machine
end

