-- ==== Sys2Proof/Machine/Operands.lean ====
section
/-! DEFINITION. The operands of a command: the integer ports (30_encoding.md R73), the source registers (10_state.md R24,
60_exceptions.md R192), the aligned pair of sources (41_alignment_arithmetic.md R110) and the precision immediate
(30_encoding.md R75). A command whose operand raises a fault takes that fault and does nothing else (R11, R196). -/

namespace Sys2Proof.Machine

/-- What `exec` answers. -/
abbrev Result := Host.Outcome State Fault Refusal

/-- An integer operand on a port: the signed value of its low `N` bits, the others ignored (R73). -/
def portInt (b : Bank) (p : PortWord) : Int := (p.setWidth b.width).toInt

/-- The precision immediate of a format C command: more than `QMAX` raises `PrecisionOutOfRange` (R75, R198). The check
is made before the command's own rule (R74, R90; log 14). -/
def withPrecision (s : State) (b : Bank) (q : Precision) (rule : Result) : Result :=
  if q.toNat ≤ b.maxPrecision then rule else .next (s.raise .precisionOutOfRange)

/-- A command that reads `x[ra]`: an unconstructed register raises `Unconstructed` (R24, R192). -/
def withSource (s : State) (b : Bank) (ra : RegIndex) (rule : NumReg b.width → Result) : Result :=
  if (s.reg b ra).v then rule (s.reg b ra) else .next (s.raise .unconstructed)

/-- What `ALIGN` returns: the two integers a command operates on and the precision of its result (R110). -/
structure Aligned where
  a : Int
  b : Int
  qc : Precision
deriving DecidableEq, Repr

/-- `ALIGN(l, lq, r, rq)` (R110), by its three branches. -/
def align (l : Int) (lq : Precision) (r : Int) (rq : Precision) : Aligned :=
  if lq = rq then { a := l, b := r, qc := lq }
  else if rq.toNat < lq.toNat then { a := asr l (lq.toNat - rq.toNat), b := r, qc := rq }
  else { a := l, b := asr r (rq.toNat - lq.toNat), qc := lq }

/-- A command that reads `x[ra]` and then `x[rb]` and aligns them (R117 steps 1 and 2, R140 steps 1 and 2). -/
def withAligned (s : State) (b : Bank) (ra rb : RegIndex) (rule : Aligned → Result) : Result :=
  withSource s b ra fun x =>
    withSource s b rb fun y =>
      rule (align x.raw.toInt x.q y.raw.toInt y.q)

end Sys2Proof.Machine
end

