-- ==== Sys2Proof/Machine/Construction.lean ====
section
/-! DEFINITION. The construction commands `FROMINT`, `FROMFRAC`, `FROMF64` (40_construction.md). They read no register
(R90). -/

namespace Sys2Proof.Machine

/-- The result `z` of a rule that stores it "with overflow check" (R10): `x[rd] <- (wrap_N(z), p)`. -/
def State.storeChecked (s : State) (b : Bank) (rd : RegIndex) (z : Int) (p : Precision) : State :=
  (s.checkOverflow b.width z).writeReg b rd (wrap b.width z) p

/-- `FROMINT.S rd, q` (R92): `i * 2^q`. -/
def execFromint (b : Bank) (rd : RegIndex) (q : Precision) (s : State) : Result :=
  withPrecision s b q (.next (s.storeChecked b rd (shl (portInt b s.port.in0) q.toNat) q))

/-- The four checked steps of `FROMFRAC` (R93) at the width `n`, each the mathematical result of the step. -/
structure FracSteps where
  z1 : Int
  z2 : Int
  z3 : Int
  z4 : Int
deriving DecidableEq, Repr

/-- R93: `ip << q`, `fn << q`, the quotient toward zero of the wrapped numerator, and the sum, each wrapped to `n` bits
before it is used again. -/
def fracSteps (n : Nat) (ip fn fd : Int) (q : Nat) : FracSteps :=
  let z1 := shl ip q
  let z2 := shl fn q
  let z3 := tdiv (wrap n z2).toInt fd
  let z4 := (wrap n z1).toInt + (wrap n z3).toInt
  { z1 := z1, z2 := z2, z3 := z3, z4 := z4 }

/-- `FROMFRAC.S rd, q` (R93). -/
def execFromfrac (b : Bank) (rd : RegIndex) (q : Precision) (s : State) : Result :=
  withPrecision s b q
    (let fd := portInt b s.port.in2
     if fd = 0 then .next (s.raise .divideByZero)
     else
       let t := fracSteps b.width (portInt b s.port.in0) (portInt b s.port.in1) fd q.toNat
       .next ((((s.checkOverflow b.width t.z1).checkOverflow b.width t.z2).checkOverflow b.width t.z3).storeChecked
         b rd t.z4 q))

/-- `FROMF64.S rd, q` (R94): all 64 bits of `IN0` whatever the bank (R73). A NaN, an infinity or a value out of range
raises `FloatRange` (R199); `OVF` is never set. -/
def execFromf64 (b : Bank) (rd : RegIndex) (q : Precision) (s : State) : Result :=
  withPrecision s b q
    (match readFloat64 s.port.in0 with
     | .nan => .next (s.raise .floatRange)
     | .infinite _ => .next (s.raise .floatRange)
     | .finite neg mag exp =>
       let z := truncScaled neg mag exp q.toNat
       if InRange b.width z then .next (s.writeReg b rd (wrap b.width z) q)
       else .next (s.raise .floatRange))

end Sys2Proof.Machine
end

