-- ==== Sys2Proof/Machine/Arithmetic.lean ====
section
/-! DEFINITION. The arithmetic commands `ADD`, `SUB`, `MUL`, `DIV`, `REM` (41_alignment_arithmetic.md). The common steps are
`withAligned` (R117); the computations are on unbounded integers, which `2N` bits would hold (R124; DEDUCED, safe:
log 16). -/

namespace Sys2Proof.Machine

/-- `ADD.S rd, ra, rb` (R112). -/
def execAdd (b : Bank) (rd ra rb : RegIndex) (s : State) : Result :=
  withAligned s b ra rb fun x => .next (s.storeChecked b rd (x.a + x.b) x.qc)

/-- `SUB.S rd, ra, rb` (R113). -/
def execSub (b : Bank) (rd ra rb : RegIndex) (s : State) : Result :=
  withAligned s b ra rb fun x => .next (s.storeChecked b rd (x.a - x.b) x.qc)

/-- `MUL.S rd, ra, rb` (R115): the normalizer shifts the exact product right, toward negative infinity (C1). -/
def execMul (b : Bank) (rd ra rb : RegIndex) (s : State) : Result :=
  withAligned s b ra rb fun x => .next (s.storeChecked b rd (asr (x.a * x.b) x.qc.toNat) x.qc)

/-- `DIV.S rd, ra, rb` (R116): the aligned divisor is tested (R121); the pre-scaled dividend is divided toward zero. -/
def execDiv (b : Bank) (rd ra rb : RegIndex) (s : State) : Result :=
  withAligned s b ra rb fun x =>
    if x.b = 0 then .next (s.raise .divideByZero)
    else .next (s.storeChecked b rd (tdiv (shl x.a x.qc.toNat) x.b) x.qc)

/-- `REM.S rd, ra, rb` (R114): stored without overflow check. -/
def execRem (b : Bank) (rd ra rb : RegIndex) (s : State) : Result :=
  withAligned s b ra rb fun x =>
    if x.b = 0 then .next (s.raise .divideByZero)
    else .next (s.writeReg b rd (wrap b.width (trem x.a x.b)) x.qc)

end Sys2Proof.Machine
end

