-- ==== Sys2Proof/Machine/Comparison.lean ====
section
/-! DEFINITION. The comparison commands `EQ`, `NE`, `LT`, `GT`, `LE`, `GE` (42_comparison.md). The common steps are
`withAligned` (R140); a comparison writes `Y` and no register. -/

namespace Sys2Proof.Machine

/-- R141: the truth value of a comparison as it stands in `Y`, 1 or 0. -/
def truth (p : Bool) : PortWord := if p then 1 else 0

/-- `EQ.S ra, rb` (R142). -/
def execEq (b : Bank) (ra rb : RegIndex) (s : State) : Result :=
  withAligned s b ra rb fun x => .next (s.writeY (truth (decide (x.a = x.b))))

/-- `NE.S ra, rb` (R143). -/
def execNe (b : Bank) (ra rb : RegIndex) (s : State) : Result :=
  withAligned s b ra rb fun x => .next (s.writeY (truth (decide (x.a ≠ x.b))))

/-- `LT.S ra, rb` (R144), signed. -/
def execLt (b : Bank) (ra rb : RegIndex) (s : State) : Result :=
  withAligned s b ra rb fun x => .next (s.writeY (truth (decide (x.a < x.b))))

/-- `GT.S ra, rb` (R145), signed. -/
def execGt (b : Bank) (ra rb : RegIndex) (s : State) : Result :=
  withAligned s b ra rb fun x => .next (s.writeY (truth (decide (x.a > x.b))))

/-- `LE.S ra, rb` (R146), signed. -/
def execLe (b : Bank) (ra rb : RegIndex) (s : State) : Result :=
  withAligned s b ra rb fun x => .next (s.writeY (truth (decide (x.a ≤ x.b))))

/-- `GE.S ra, rb` (R147), signed. -/
def execGe (b : Bank) (ra rb : RegIndex) (s : State) : Result :=
  withAligned s b ra rb fun x => .next (s.writeY (truth (decide (x.a ≥ x.b))))

end Sys2Proof.Machine
end

