-- ==== Sys2Proof/Machine/Conversion.lean ====
section
/-! DEFINITION. The conversion commands `TOINT`, `FRAC`, `FRACDIV`, `TOF64`, `TOF32` (43_conversion.md). Each reads one
register and writes `Y` (R155, R156). -/

namespace Sys2Proof.Machine

/-- `TOINT.S ra` (R157): the floor of the number, sign-extended to 64 bits. -/
def execToint (b : Bank) (ra : RegIndex) (s : State) : Result :=
  withSource s b ra fun r =>
    .next (s.writeY ((wrap b.width (asr r.raw.toInt r.q.toNat)).signExtend 64))

/-- The value of `FRAC` (R158) for the fraction `f / 2^q` at `d` digits: one extra digit, rounded half up, but at the
digit cap truncated. -/
def fracDigits (f q d : Nat) : Nat :=
  if d < maxDigits then (f * P10 (d + 1) / 2 ^ q + 5) / 10
  else f * P10 maxDigits / 2 ^ q

/-- `FRAC.S ra` (R158): of the low `q` bits of `.raw`, unsigned (C5), at `.qd` digits (log 15). -/
def execFrac (b : Bank) (ra : RegIndex) (s : State) : Result :=
  withSource s b ra fun r =>
    .next (s.writeY (BitVec.ofNat 64 (fracDigits (r.raw.toNat % 2 ^ r.q.toNat) r.q.toNat r.qd.toNat)))

/-- `FRACDIV.S ra` (R159): ten to the digit count `.qd` (log 15). -/
def execFracdiv (b : Bank) (ra : RegIndex) (s : State) : Result :=
  withSource s b ra fun r => .next (s.writeY (BitVec.ofNat 64 (P10 r.qd.toNat)))

/-- `TOF64.S ra` (R161). -/
def execTof64 (b : Bank) (ra : RegIndex) (s : State) : Result :=
  withSource s b ra fun r => .next (s.writeY (fround binary64 r.raw.toInt r.q.toNat))

/-- `TOF32.S ra` (R162): the binary32 pattern in the low half of `Y`, zeros above (R156). -/
def execTof32 (b : Bank) (ra : RegIndex) (s : State) : Result :=
  withSource s b ra fun r => .next (s.writeY ((fround binary32 r.raw.toInt r.q.toNat).setWidth 64))

end Sys2Proof.Machine
end

