-- ==== Sys2Proof/Machine/System.lean ====
section
/-! DEFINITION. The system and copy commands `NOP`, `CLROVF`, `MOV` (44_system.md). -/

namespace Sys2Proof.Machine

/-- `NOP` (R181): nothing changes. -/
def execNop (s : State) : Result := .next s

/-- `CLROVF` (R182): `STATUS.OVF <- 0`. -/
def execClrovf (s : State) : Result := .next s.clearOverflow

/-- `MOV.S rd, ra` (R183): raw value and precision are copied bit for bit. -/
def execMov (b : Bank) (rd ra : RegIndex) (s : State) : Result :=
  withSource s b ra fun r => .next (s.writeReg b rd r.raw r.q)

end Sys2Proof.Machine
end

