-- ==== Sys2Proof/Machine/Dispatch.lean ====
section
/-! DEFINITION. The rule a decoded command performs (30_encoding.md R69, R74 steps 4 and 5): one arm per command. -/

namespace Sys2Proof.Machine

def exec (i : Instr) (s : State) : Host.Outcome State Fault Refusal :=
  match i with
  -- system and copy
  | .nop => Sys2Proof.Machine.execNop s
  | .clrovf => Sys2Proof.Machine.execClrovf s
  | .mov b rd ra => Sys2Proof.Machine.execMov b rd ra s
  -- construction
  | .fromint b rd q => Sys2Proof.Machine.execFromint b rd q s
  | .fromfrac b rd q => Sys2Proof.Machine.execFromfrac b rd q s
  | .fromf64 b rd q => Sys2Proof.Machine.execFromf64 b rd q s
  -- arithmetic
  | .add b rd ra rb => Sys2Proof.Machine.execAdd b rd ra rb s
  | .sub b rd ra rb => Sys2Proof.Machine.execSub b rd ra rb s
  | .mul b rd ra rb => Sys2Proof.Machine.execMul b rd ra rb s
  | .div b rd ra rb => Sys2Proof.Machine.execDiv b rd ra rb s
  | .rem b rd ra rb => Sys2Proof.Machine.execRem b rd ra rb s
  -- comparison
  | .eq b ra rb => Sys2Proof.Machine.execEq b ra rb s
  | .ne b ra rb => Sys2Proof.Machine.execNe b ra rb s
  | .lt b ra rb => Sys2Proof.Machine.execLt b ra rb s
  | .gt b ra rb => Sys2Proof.Machine.execGt b ra rb s
  | .le b ra rb => Sys2Proof.Machine.execLe b ra rb s
  | .ge b ra rb => Sys2Proof.Machine.execGe b ra rb s
  -- conversion
  | .toint b ra => Sys2Proof.Machine.execToint b ra s
  | .frac b ra => Sys2Proof.Machine.execFrac b ra s
  | .fracdiv b ra => Sys2Proof.Machine.execFracdiv b ra s
  | .tof32 b ra => Sys2Proof.Machine.execTof32 b ra s
  | .tof64 b ra => Sys2Proof.Machine.execTof64 b ra s

end Sys2Proof.Machine
end

