-- ==== Sys2Proof/Machine/Events.lean ====
section
/-! DEFINITION. What one event does (00_scope.md R13, 30_encoding.md R74, 60_exceptions.md R195, R197). -/

namespace Sys2Proof.Machine

/-- R74 steps 2 to 5: the word on the input is decoded; an illegal one raises `IllegalCommand` (R193), a legal one
performs its command. -/
def performCommand (s : State) : Result :=
  match decode s.port.word with
  | .ok i => exec i s
  | .error _ => .next (s.raise .illegalCommand)

/-- One event. In the fault state a command is taken and ignored (R197, R74 step 1). With no event to come the FXU is
idle and keeps all state (R206; DESIGN CHOICE, safe: log 1). -/
def takeEvent (s : State) : Result :=
  match s.events with
  | [] => .next s
  | .reset :: rest => .next (s.takeReset rest)
  | .command c :: rest =>
    if s.status.fault then .next (s.discard rest) else performCommand (s.deliver c rest)

end Sys2Proof.Machine
end

