-- ==== Sys2Proof/Machine/Step.lean ====
section
/-! DEFINITION. A step of the machine is one event (00_scope.md R13). -/

namespace Sys2Proof.Machine

/-- One step: the next event the host issues is taken whole (R13). -/
def step (s : State) : Host.Outcome State Fault Refusal := takeEvent s

/-- The state in which the next event is the command whose word is given as spec/opcode_table.json numbers its bits: the
host issues it next (R13; log 2). -/
def State.withFetchWord (s : State) (nbits w : Nat) : State := s.issue (tableWord nbits w)

end Sys2Proof.Machine
end

