-- ==== Sys2Proof/Safety.lean ====
section
/-! DEFINITION. What counts as a safe run, and the terms the claims are written in. They are written out from the spec
and do not call the operations of Machine/ where they say what a command does. -/

namespace Sys2Proof.Machine

/-! ## Safe states -/

/-- R23 (a), (b): a constructed register has a precision of its bank and the digit count of that precision. -/
abbrev NumReg.Sound {n : Nat} (r : NumReg n) : Prop :=
  r.v = true → r.q.toNat ≤ n - 1 ∧ r.qd = QD r.q

/-- R23 for every register of both banks. -/
abbrev State.RegistersSound (s : State) : Prop :=
  (∀ i, (s.reg .W i).Sound) ∧ (∀ i, (s.reg .L i).Sound)

/-- R29, R191: `CAUSE` is 0 while there is no fault, and one of the codes 1 to 5 while there is one. -/
abbrev State.CauseSound (s : State) : Prop :=
  if s.status.fault = true then 1 ≤ s.status.cause.toNat ∧ s.status.cause.toNat ≤ 5 else s.status.cause = 0

/-- The invariant of the FXU: R23 and the code of the fault (R29, R191). -/
abbrev State.Inv (s : State) : Prop := s.RegistersSound ∧ s.CauseSound

/-- A run has not failed so far (R221): the FXU is not in the fault state (R197). -/
abbrev State.Running (s : State) : Prop := s.status.fault = false

/-! ## What a command leaves, in the spec's words -/

/-- R196: the state before the command plus the three writes of fault entry. -/
def State.afterFault (s : State) (code : BitVec 3) : State :=
  { s with status := { s.status with fault := true, cause := code }, fcmd := s.port.word }

/-- R28: the state before the command with `Y` written and `YV` set. -/
def State.afterY (s : State) (v : PortWord) : State :=
  { s with y := v, status := { s.status with yv := true } }

/-- The frame of a command that writes one register and may set `OVF` (R10, R14, R25): `t` is `s` but for the register
`rd` of bank `b`, which holds `(raw, p)` with its digit count and valid bit, and for `OVF`, which is set when it was set
or `overflowed` holds. -/
structure State.StoredIn (s t : State) (b : Bank) (rd : RegIndex) (raw : BitVec b.width) (p : Precision)
    (overflowed : Prop) : Prop where
  destination : t.reg b rd = { raw := raw, q := p, qd := QD p, v := true }
  otherRegisters : ∀ b' i, ¬(b' = b ∧ i = rd) → t.reg b' i = s.reg b' i
  overflowFlag : t.status.ovf = true ↔ s.status.ovf = true ∨ overflowed
  otherStatus : t.status.fault = s.status.fault ∧ t.status.cause = s.status.cause ∧ t.status.yv = s.status.yv
  result : t.y = s.y
  faultCommand : t.fcmd = s.fcmd
  host : t.port = s.port ∧ t.events = s.events

/-- The content of `Y` after a command, where it answers a next state. -/
def yAfter (i : Instr) (s : State) : Option PortWord :=
  match exec i s with
  | .next t => some t.y
  | .fault _ => none
  | .refused _ => none

/-! ## Numbers -/

/-- The signed integer a command of bank `b` finds on a port (R73). -/
def lowInteger (b : Bank) (p : PortWord) : Int := (p.setWidth b.width).toInt

/-- The precision of the result of two operands: the smaller one (R110, R111 (a)). -/
def commonPrecision {n : Nat} (x y : NumReg n) : Precision := if x.q.toNat ≤ y.q.toNat then x.q else y.q

/-- The raw value of an operand at the precision `p`: its surplus low bits dropped, toward negative infinity (R110,
R111 (d)). -/
def alignedTo {n : Nat} (x : NumReg n) (p : Precision) : Int := x.raw.toInt / 2 ^ (x.q.toNat - p.toNat)

/-- The real number a register stands for, `s_N(raw) / 2^q` (R7). -/
def NumReg.number {n : Nat} (x : NumReg n) : ℚ := x.raw.toInt / 2 ^ x.q.toNat

/-- The real number a binary64 pattern stands for, none for a NaN or an infinity (R95). -/
def float64Number (bits : BitVec 64) : Option ℚ :=
  let sign : ℚ := if bits.getLsbD 63 then -1 else 1
  let e : Nat := (bits.extractLsb' 52 11).toNat
  let f : Nat := (bits.extractLsb' 0 52).toNat
  if e = 2047 then none
  else if e = 0 then some (sign * f * 2 ^ (-1074 : ℤ))
  else some (sign * (2 ^ 52 + f) * 2 ^ ((e : ℤ) - 1075))

/-- `trunc(r)`: the integer toward zero (R94). -/
def truncateRational (r : ℚ) : Int := if 0 ≤ r then ⌊r⌋ else -⌊-r⌋

/-- R163: a nonzero `x` rounded once to `p` significant bits, to nearest and a tie to even, with exponent bias `bias`,
has the sign `neg`, the exponent field `e` and the fraction field `f`. `E` is `floor(log2 |x|)`, `M` the rounded
significand. -/
def RoundsTo (p bias : Nat) (x : ℚ) (neg : Bool) (e f : Nat) : Prop :=
  ∃ (E : ℤ) (M : Nat),
    (2 : ℚ) ^ E ≤ |x| ∧ |x| < 2 ^ (E + 1) ∧
    |(|x| / 2 ^ (E - p + 1)) - M| ≤ 1 / 2 ∧
    (|(|x| / 2 ^ (E - p + 1)) - M| = 1 / 2 → M % 2 = 0) ∧
    neg = decide (x < 0) ∧
    if M = 2 ^ p then (e : ℤ) = E + 1 + bias ∧ f = 0
    else (e : ℤ) = E + bias ∧ M = 2 ^ (p - 1) + f

/-! ## What a command reads and writes -/

end Sys2Proof.Machine

namespace Sys2Proof

/-- The register a command may write (R67, column "writes"). -/
def Instr.destination : Instr → Option (Bank × RegIndex)
  | .nop => none
  | .clrovf => none
  | .mov b rd _ => some (b, rd)
  | .fromint b rd _ => some (b, rd)
  | .fromfrac b rd _ => some (b, rd)
  | .fromf64 b rd _ => some (b, rd)
  | .add b rd _ _ => some (b, rd)
  | .sub b rd _ _ => some (b, rd)
  | .mul b rd _ _ => some (b, rd)
  | .div b rd _ _ => some (b, rd)
  | .rem b rd _ _ => some (b, rd)
  | .eq _ _ _ => none
  | .ne _ _ _ => none
  | .lt _ _ _ => none
  | .gt _ _ _ => none
  | .le _ _ _ => none
  | .ge _ _ _ => none
  | .toint _ _ => none
  | .frac _ _ => none
  | .fracdiv _ _ => none
  | .tof32 _ _ => none
  | .tof64 _ _ => none

/-- The bank and the source registers of a command, `ra` before `rb` (R67, R192). -/
def Instr.sources : Instr → List (Bank × RegIndex)
  | .nop => []
  | .clrovf => []
  | .mov b _ ra => [(b, ra)]
  | .fromint _ _ _ => []
  | .fromfrac _ _ _ => []
  | .fromf64 _ _ _ => []
  | .add b _ ra rb => [(b, ra), (b, rb)]
  | .sub b _ ra rb => [(b, ra), (b, rb)]
  | .mul b _ ra rb => [(b, ra), (b, rb)]
  | .div b _ ra rb => [(b, ra), (b, rb)]
  | .rem b _ ra rb => [(b, ra), (b, rb)]
  | .eq b ra rb => [(b, ra), (b, rb)]
  | .ne b ra rb => [(b, ra), (b, rb)]
  | .lt b ra rb => [(b, ra), (b, rb)]
  | .gt b ra rb => [(b, ra), (b, rb)]
  | .le b ra rb => [(b, ra), (b, rb)]
  | .ge b ra rb => [(b, ra), (b, rb)]
  | .toint b ra => [(b, ra)]
  | .frac b ra => [(b, ra)]
  | .fracdiv b ra => [(b, ra)]
  | .tof32 b ra => [(b, ra)]
  | .tof64 b ra => [(b, ra)]

/-- The bank of a command, none for format Z (R67). -/
def Instr.bank : Instr → Option Bank
  | .nop => none
  | .clrovf => none
  | .mov b _ _ => some b
  | .fromint b _ _ => some b
  | .fromfrac b _ _ => some b
  | .fromf64 b _ _ => some b
  | .add b _ _ _ => some b
  | .sub b _ _ _ => some b
  | .mul b _ _ _ => some b
  | .div b _ _ _ => some b
  | .rem b _ _ _ => some b
  | .eq b _ _ => some b
  | .ne b _ _ => some b
  | .lt b _ _ => some b
  | .gt b _ _ => some b
  | .le b _ _ => some b
  | .ge b _ _ => some b
  | .toint b _ => some b
  | .frac b _ => some b
  | .fracdiv b _ => some b
  | .tof32 b _ => some b
  | .tof64 b _ => some b

/-- The commands that write `Y`: formats P and V (R67). -/
def Instr.writesY (i : Instr) : Bool := i.destination.isNone && !i.sources.isEmpty

/-- The six commands whose rule says "with overflow check" (R30). -/
def Instr.checksOverflow : Instr → Bool
  | .fromint _ _ _ => true
  | .fromfrac _ _ _ => true
  | .add _ _ _ _ => true
  | .sub _ _ _ _ => true
  | .mul _ _ _ _ => true
  | .div _ _ _ _ => true
  | .nop => false
  | .clrovf => false
  | .mov _ _ _ => false
  | .fromf64 _ _ _ => false
  | .rem _ _ _ _ => false
  | .eq _ _ _ => false
  | .ne _ _ _ => false
  | .lt _ _ _ => false
  | .gt _ _ _ => false
  | .le _ _ _ => false
  | .ge _ _ _ => false
  | .toint _ _ => false
  | .frac _ _ => false
  | .fracdiv _ _ => false
  | .tof32 _ _ => false
  | .tof64 _ _ => false

/-- The port bits a command reads are the same in both (R67 column "data ports read", R73): the low `N` bits for the
integer constructions, all of `IN0` for `FROMF64`, nothing for the others. -/
def Instr.SamePorts (i : Instr) (c d : Machine.Command) : Prop :=
  match i with
  | .fromint b _ _ => c.in0.setWidth b.width = d.in0.setWidth b.width
  | .fromfrac b _ _ =>
    c.in0.setWidth b.width = d.in0.setWidth b.width ∧ c.in1.setWidth b.width = d.in1.setWidth b.width ∧
      c.in2.setWidth b.width = d.in2.setWidth b.width
  | .fromf64 _ _ _ => c.in0 = d.in0
  | .nop => True
  | .clrovf => True
  | .mov _ _ _ => True
  | .add _ _ _ _ => True
  | .sub _ _ _ _ => True
  | .mul _ _ _ _ => True
  | .div _ _ _ _ => True
  | .rem _ _ _ _ => True
  | .eq _ _ _ => True
  | .ne _ _ _ => True
  | .lt _ _ _ => True
  | .gt _ _ _ => True
  | .le _ _ _ => True
  | .ge _ _ _ => True
  | .toint _ _ => True
  | .frac _ _ => True
  | .fracdiv _ _ => True
  | .tof32 _ _ => True
  | .tof64 _ _ => True

end Sys2Proof

namespace Sys2Proof.Machine

/-- The two states differ at most in what the spec leaves unspecified: the fields of an unconstructed register (R24),
`Y` while `YV = 0` (R28), `FCMD` while `FAULT = 0` (R32). -/
structure State.SameSpecified (s t : State) : Prop where
  status : s.status = t.status
  valid : ∀ b i, (s.reg b i).v = (t.reg b i).v
  registers : ∀ b i, (s.reg b i).v = true → s.reg b i = t.reg b i
  result : s.status.yv = true → s.y = t.y
  faultCommand : s.status.fault = true → s.fcmd = t.fcmd
  host : s.port = t.port ∧ s.events = t.events

/-! ## Words -/

/-- The format of each opcode in use (R69). -/
def opcodeFormats : List (BitVec 6 × Format) :=
  [(0x01, .Z), (0x02, .Z), (0x03, .M), (0x08, .C), (0x09, .C), (0x0A, .C)] ++
  [(0x10, .A), (0x11, .A), (0x12, .A), (0x13, .A), (0x14, .A)] ++
  [(0x18, .P), (0x19, .P), (0x1A, .P), (0x1B, .P), (0x1C, .P), (0x1D, .P)] ++
  [(0x20, .V), (0x21, .V), (0x22, .V), (0x23, .V), (0x24, .V)]

/-- R76: the `op` of the word is none of R69, or its reserved bits or a field its format does not use are not zero
(R70). -/
def IllegalWord (c : CommandWord) : Prop :=
  (∀ fmt, ((fieldsOf c).op, fmt) ∉ opcodeFormats) ∨
  ∃ fmt, ((fieldsOf c).op, fmt) ∈ opcodeFormats ∧
    ((fieldsOf c).z ≠ 0#10 ∨ fmt.unusedZero (fieldsOf c) = false)

/-- The words of opcode `op` in format `fmt` are the command `mk` makes of their fields; a word with a nonzero reserved
bit or unused field is illegal, and takes `IllegalCommand` out of the fault state (R70, R76, R193). -/
def EncodedAs (op : BitVec 6) (fmt : Format) (mk : Fields → Instr) : Prop :=
  ∀ c : Command, (fieldsOf c.word).op = op →
    if (fieldsOf c.word).z = 0#10 ∧ fmt.unusedZero (fieldsOf c.word) = true then
      decode c.word = .ok (mk (fieldsOf c.word))
    else
      ∀ (s : State) (rest : List Event), s.Running → s.events = .command c :: rest →
        step s = .next (({ s with port := c, events := rest } : State).afterFault 1)

end Sys2Proof.Machine
end

