-- ==== Sys2Proof/Certificates/Slice0/Obligations.lean ====
section
/-! DEFINITION. The statements for the provers. Each docstring names the rules of spec/ it rests on; OBLIGATIONS.json holds
the list. The FXU has no memory (20_memory.md R50), so a frame here speaks of the two banks, `Y`, `STATUS`, `FCMD` and
the host's side of the interface. Statements about `exec` carry the premise that the FXU is not in the fault state,
since no command is performed there (R197). -/

open Sys2Proof Sys2Proof.Machine

/-! ## Encoding -/

/-- Decode and encode agree, for every command and every value of its fields (R66 to R70, R74). -/
def Obligations.DecodeOfEncodeIsTheCommand : Prop :=
  ∀ i : Instr, decode (encode i) = .ok i

/-- Every legal word is the word of the command it selects: no bit of a legal word is dropped (R68, R70). -/
def Obligations.EncodeOfDecodeIsTheWord : Prop :=
  ∀ (c : CommandWord) (i : Instr), decode c = .ok i → encode i = c

/-- The decoder agrees with spec/opcode_table.json: a word is legal when a row selects it, and its command is that row's;
no two rows select one word (R74, R81). -/
def Obligations.DecoderAgreesWithTheOpcodeTable : Prop :=
  (∀ (c : CommandWord) (i : Instr), decode c = .ok i → i.row.selects c = true) ∧
  (∀ (c : CommandWord) (i : Instr), i.row.selects c = true → ∃ j, decode c = .ok j ∧ j.row = i.row) ∧
  (∀ (c : CommandWord) (i j : Instr), i.row.selects c = true → j.row.selects c = true → i.row = j.row)

/-- The words the spec writes out decode to the commands it gives them (R78). -/
def Obligations.SpecsExampleWordsDecode : Prop :=
  decode 0x04000000 = .ok .nop ∧
  decode 0x0E400000 = .ok (.mov .L 1 0) ∧
  decode 0x20003000 = .ok (.fromint .W 0 12) ∧
  decode 0x24403000 = .ok (.fromfrac .W 1 12) ∧
  decode 0x28003000 = .ok (.fromf64 .W 0 12) ∧
  decode 0x40810000 = .ok (.add .W 2 0 1) ∧
  decode 0x68010000 = .ok (.lt .W 0 1) ∧
  decode 0x82180000 = .ok (.toint .L 3)

/-- R76, R193: an illegal word takes the fault `IllegalCommand`, whatever the registers and the ports hold; the all-zero
and the all-ones word are illegal. -/
def Obligations.IllegalWordFaults : Prop :=
  IllegalWord 0x00000000 ∧ IllegalWord 0xFFFFFFFF ∧
  ∀ (s : State) (c : Command) (rest : List Event), s.Running → s.events = .command c :: rest → IllegalWord c.word →
    step s = .next (({ s with port := c, events := rest } : State).afterFault 1)

/-! ## Events -/

/-- A step runs the decoded command: out of the fault state, a `Command` event whose word decodes to `i` is `exec i` on
the state in which the word and the port values stand on the inputs and the event is taken (R13, R74). -/
def Obligations.StepRunsTheDecodedCommand : Prop :=
  ∀ (s : State) (c : Command) (rest : List Event) (i : Instr),
    s.Running → s.events = .command c :: rest → decode c.word = .ok i →
      step s = exec i { s with port := c, events := rest }

/-- R197: in the fault state a command is taken and nothing else changes. -/
def Obligations.FaultStateIgnoresEveryCommand : Prop :=
  ∀ (s : State) (c : Command) (rest : List Event),
    s.status.fault = true → s.events = .command c :: rest → step s = .next { s with events := rest }

/-- `Reset`, in or out of the fault state, leaves every register unconstructed and `STATUS` zero (R215, R36). -/
def Obligations.ResetClearsRegistersAndStatus : Prop :=
  ∀ (s : State) (rest : List Event), s.events = .reset :: rest →
    ∃ t, step s = .next t ∧ (∀ b i, (t.reg b i).v = false) ∧ t.status.word = 0 ∧ t.events = rest

/-- R202: the fault state is left by `Reset` and by nothing else, and then no register is constructed. -/
def Obligations.OnlyResetLeavesTheFaultState : Prop :=
  ∀ s t : State, s.status.fault = true → step s = .next t →
    (t.status.fault = false ↔ ∃ rest, s.events = .reset :: rest) ∧
    (t.status.fault = false → ∀ b i, (t.reg b i).v = false)

/-- No command clears `FAULT`, `YV` or a valid bit (R25, R29, R31, R215). -/
def Obligations.CommandsNeverClearFaultYvOrValid : Prop :=
  ∀ (s t : State) (c : Command) (rest : List Event), s.events = .command c :: rest → step s = .next t →
    (s.status.fault = true → t.status.fault = true) ∧ (s.status.yv = true → t.status.yv = true) ∧
    ∀ b i, (s.reg b i).v = true → (t.reg b i).v = true

/-- With no event to come the FXU keeps all state (R206). That this is a step at all is the model's choice (log 1). -/
def Obligations.IdleKeepsAllState : Prop :=
  ∀ s : State, s.events = [] → step s = .next s

/-- Every step answers a next state and takes exactly the next event: none is refused or delayed (R13). With none to come
the list stays empty, which is the model's choice (log 1). -/
def Obligations.EveryEventIsTaken : Prop :=
  ∀ s : State, ∃ t, step s = .next t ∧ t.events = s.events.tail

/-! ## Invariants and whole-machine rules -/

/-- After reset every register is unconstructed and `STATUS` is zero (R36, the values it gives). -/
def Obligations.ResetStateIsUnconstructed : Prop :=
  (∀ b i, (State.reset.reg b i).v = false) ∧ State.reset.status.word = 0

/-- The invariant holds after reset (R23, R29). -/
def Obligations.InvariantHoldsAtReset : Prop := State.reset.Inv

/-- R23 and the code of the fault are kept by every event, from every state that has them (R23, R29, R191). -/
def Obligations.EveryStepKeepsTheInvariant : Prop :=
  ∀ s t : State, s.Inv → step s = .next t → t.Inv

/-- No event reads what the spec leaves unspecified (R24, R28, R32): two states that agree on the rest go to states that
agree on the rest. So no claim in these terms rests on the model's reset values (logs 4 to 7). -/
def Obligations.UnspecifiedContentsNeverMatter : Prop :=
  ∀ s t s' t' : State, s.SameSpecified t → step s = .next s' → step t = .next t' → s'.SameSpecified t'

/-- A command reads only the port bits of its format (R67, R73): with the others changed it does the same. -/
def Obligations.OnlyTheReadPortBitsMatter : Prop :=
  ∀ (i : Instr) (s t : State) (d : Command),
    i.SamePorts s.port d → d.word = s.port.word → exec i s = .next t →
      exec i { s with port := d } = .next { t with port := d }

/-- The banks are independent (R21): a command of one bank neither reads nor writes the other. -/
def Obligations.BanksAreIndependent : Prop :=
  (∀ (i : Instr) (s t : State) (v : Vector (NumReg 64) registersPerBank), i.bank ≠ some .L → exec i s = .next t →
    t.bankL = s.bankL ∧ exec i { s with bankL := v } = .next { t with bankL := v }) ∧
  (∀ (i : Instr) (s t : State) (v : Vector (NumReg 32) registersPerBank), i.bank ≠ some .W → exec i s = .next t →
    t.bankW = s.bankW ∧ exec i { s with bankW := v } = .next { t with bankW := v })

/-- The frame of all commands (R14): a command changes at most its destination register, or `Y` with `YV`, and the status
flags; a source register that is not the destination is unchanged; a command that does not fault leaves `CAUSE` and
`FCMD`. -/
def Obligations.CommandChangesAtMostItsDestination : Prop :=
  ∀ (i : Instr) (s t : State), exec i s = .next t →
    (∀ b j, i.destination ≠ some (b, j) → t.reg b j = s.reg b j) ∧
    (i.writesY = false → t.y = s.y ∧ t.status.yv = s.status.yv) ∧
    (t.status.fault = false → t.fcmd = s.fcmd ∧ t.status.cause = s.status.cause) ∧
    t.port = s.port ∧ t.events = s.events

/-- R30: `OVF` is cleared by `CLROVF` alone, set by the six checking commands alone, and left by a command that
faults. -/
def Obligations.OverflowFlagIsSticky : Prop :=
  ∀ (i : Instr) (s t : State), s.Running → exec i s = .next t →
    (i = .clrovf → t.status.ovf = false) ∧
    (i ≠ .clrovf → s.status.ovf = true → t.status.ovf = true) ∧
    (i ≠ .clrovf → i.checksOverflow = false → t.status.ovf = s.status.ovf) ∧
    (t.status.fault = true → t.status.ovf = s.status.ovf)

/-- R196: faults are precise. A command event after which the FXU is newly in the fault state has written `FAULT`, a
code from 1 to 5 and, to `FCMD`, its own word, and nothing else. -/
def Obligations.FaultsArePrecise : Prop :=
  ∀ (s t : State) (c : Command) (rest : List Event), s.Running → s.events = .command c :: rest → step s = .next t →
    t.status.fault = true →
      ∃ code : BitVec 3, 1 ≤ code.toNat ∧ code.toNat ≤ 5 ∧ t.fcmd = c.word ∧
        t = ({ s with port := c, events := rest } : State).afterFault code

/-- The code of the fault a legal command raises, none if it raises none: the conditions of R191 in the order of R195,
from step (3) of it on. -/
def Sys2Proof.Machine.expectedFault (i : Instr) (s : State) : Option (BitVec 3) :=
  if i.wellFormed = false then some 2
  else if ∃ x ∈ i.sources, (s.reg x.1 x.2).v = false then some 3
  else
    let zeroDivisor (b : Bank) (ra rb : RegIndex) : Option (BitVec 3) :=
      if alignedTo (s.reg b rb) (commonPrecision (s.reg b ra) (s.reg b rb)) = 0 then some 4 else none
    match i with
    | .fromfrac b _ _ => if lowInteger b s.port.in2 = 0 then some 4 else none
    | .fromf64 b _ q =>
      match float64Number s.port.in0 with
      | none => some 5
      | some d => if InRange b.width (truncateRational (d * 2 ^ q.toNat)) then none else some 5
    | .div b _ ra rb => zeroDivisor b ra rb
    | .rem b _ ra rb => zeroDivisor b ra rb
    | .nop | .clrovf | .mov _ _ _ | .fromint _ _ _ | .add _ _ _ _ | .sub _ _ _ _ | .mul _ _ _ _ | .eq _ _ _
    | .ne _ _ _ | .lt _ _ _ | .gt _ _ _ | .le _ _ _ | .ge _ _ _ | .toint _ _ | .frac _ _ | .fracdiv _ _ | .tof32 _ _
    | .tof64 _ _ => none

/-- R195, with the conditions of R191: a command in the fault state is ignored, an illegal word raises `IllegalCommand`,
and a legal command raises exactly the fault whose condition holds first in the order of checks, with that fault's
entry; when none holds it goes on without one. -/
def Obligations.FaultsAreRaisedInTheOrderOfChecks : Prop :=
  ∀ (s d : State) (c : Command) (rest : List Event), s.events = .command c :: rest →
    d = { s with port := c, events := rest } →
    (s.status.fault = true → step s = .next { s with events := rest }) ∧
    (s.Running → IllegalWord c.word → step s = .next (d.afterFault 1)) ∧
    (s.Running → ¬ IllegalWord c.word → ∃ i, decode c.word = .ok i ∧
      match expectedFault i d with
      | some code => step s = .next (d.afterFault code)
      | none => ∃ t, step s = .next t ∧ t.status.fault = false)

/-! ## System and copy commands -/

/-- R181: `NOP` changes nothing; its word is `0x04000000` and any other word of its opcode is illegal; in the fault state
it is ignored. -/
def Obligations.NopChangesNothing : Prop :=
  encode .nop = 0x04000000 ∧ EncodedAs 0x01 .Z (fun _ => .nop) ∧ (∀ s : State, exec .nop s = .next s) ∧
  ∀ (s : State) (c : Command) (rest : List Event), s.status.fault = true → c.word = 0x04000000 →
    s.events = .command c :: rest → step s = .next { s with events := rest }

/-- R182: `CLROVF` clears `OVF` and nothing else; its word is `0x08000000` and any other word of its opcode is illegal;
it is the only command that clears `OVF`; in the fault state it is ignored. -/
def Obligations.ClrovfClearsOnlyTheOverflowFlag : Prop :=
  encode .clrovf = 0x08000000 ∧ EncodedAs 0x02 .Z (fun _ => .clrovf) ∧
  (∀ s : State, s.Running → exec .clrovf s = .next { s with status := { s.status with ovf := false } }) ∧
  (∀ (i : Instr) (s t : State), exec i s = .next t → s.status.ovf = true → t.status.ovf = false → i = .clrovf) ∧
  ∀ (s : State) (c : Command) (rest : List Event), s.status.fault = true → c.word = 0x08000000 →
    s.events = .command c :: rest → step s = .next { s with events := rest }

/-- R183: `MOV` copies raw value and precision bit for bit, changes nothing else, and faults on an unconstructed
source. -/
def Obligations.MovCopiesTheNumber : Prop :=
  EncodedAs 0x03 .M (fun f => .mov f.bank f.rd f.ra) ∧
  ∀ (b : Bank) (rd ra : RegIndex) (s : State), s.Running →
    if (s.reg b ra).v = true then
      ∃ t, exec (.mov b rd ra) s = .next t ∧ s.StoredIn t b rd (s.reg b ra).raw (s.reg b ra).q False
    else exec (.mov b rd ra) s = .next (s.afterFault 3)

/-! ## Construction -/

/-- R92: `FROMINT` stores `i * 2^q` wrapped to `N` bits, with overflow check; a precision above `QMAX` faults. -/
def Obligations.FromintStoresTheScaledInteger : Prop :=
  EncodedAs 0x08 .C (fun f => .fromint f.bank f.rd f.q) ∧
  ∀ (b : Bank) (rd : RegIndex) (q : Precision) (s : State), s.Running →
    if q.toNat ≤ b.width - 1 then
      ∃ t, exec (.fromint b rd q) s = .next t ∧
        s.StoredIn t b rd (BitVec.ofInt b.width (lowInteger b s.port.in0 * 2 ^ q.toNat)) q
          (¬ InRange b.width (lowInteger b s.port.in0 * 2 ^ q.toNat))
    else exec (.fromint b rd q) s = .next (s.afterFault 2)

/-- R93: `FROMFRAC` stores `(ip << q) + (fn << q) / fd`, each step wrapped to `N` bits with overflow check, the division
toward zero; a zero denominator and a precision above `QMAX` fault. -/
def Obligations.FromfracStoresTheIntegerPlusTheFraction : Prop :=
  EncodedAs 0x09 .C (fun f => .fromfrac f.bank f.rd f.q) ∧
  ∀ (b : Bank) (rd : RegIndex) (q : Precision) (s : State), s.Running →
    if b.width - 1 < q.toNat then exec (.fromfrac b rd q) s = .next (s.afterFault 2)
    else if lowInteger b s.port.in2 = 0 then exec (.fromfrac b rd q) s = .next (s.afterFault 4)
    else
      ∀ (z1 z2 z3 z4 : Int),
        z1 = lowInteger b s.port.in0 * 2 ^ q.toNat →
        z2 = lowInteger b s.port.in1 * 2 ^ q.toNat →
        z3 = (BitVec.ofInt b.width z2).toInt.tdiv (lowInteger b s.port.in2) →
        z4 = (BitVec.ofInt b.width z1).toInt + (BitVec.ofInt b.width z3).toInt →
        ∃ t, exec (.fromfrac b rd q) s = .next t ∧
          s.StoredIn t b rd (BitVec.ofInt b.width z4) q
            (¬ InRange b.width z1 ∨ ¬ InRange b.width z2 ∨ ¬ InRange b.width z3 ∨ ¬ InRange b.width z4)

/-- R94, R95, R199: `FROMF64` stores `trunc(d * 2^q)` of the exact real product; a NaN, an infinity and a result that
does not fit fault; `OVF` is untouched. -/
def Obligations.Fromf64StoresTheTruncatedProduct : Prop :=
  EncodedAs 0x0A .C (fun f => .fromf64 f.bank f.rd f.q) ∧
  ∀ (b : Bank) (rd : RegIndex) (q : Precision) (s : State), s.Running →
    if b.width - 1 < q.toNat then exec (.fromf64 b rd q) s = .next (s.afterFault 2)
    else
      match float64Number s.port.in0 with
      | none => exec (.fromf64 b rd q) s = .next (s.afterFault 5)
      | some d =>
        if InRange b.width (truncateRational (d * 2 ^ q.toNat)) then
          ∃ t, exec (.fromf64 b rd q) s = .next t ∧
            s.StoredIn t b rd (BitVec.ofInt b.width (truncateRational (d * 2 ^ q.toNat))) q False
        else exec (.fromf64 b rd q) s = .next (s.afterFault 5)

/-- R96: an integer that fits at the precision comes back from `FROMINT` and `TOINT`, and `OVF` is not set by it. -/
def Obligations.IntegerRoundTrip : Prop :=
  ∀ (b : Bank) (rd : RegIndex) (q : Precision) (s : State), s.Running → q.toNat ≤ b.width - 1 →
    InRange b.width (lowInteger b s.port.in0 * 2 ^ q.toNat) →
      ∃ t u, exec (.fromint b rd q) s = .next t ∧ exec (.toint b rd) t = .next u ∧
        u.y.toInt = lowInteger b s.port.in0 ∧ t.status.ovf = s.status.ovf

/-! ## Alignment and arithmetic -/

/-- What `ALIGN` gives two registers of one bank that satisfy R23 (R110, R111): the smaller precision, a shift below `N`,
and both values in range; the coarser operand keeps its raw value. -/
def Obligations.AlignmentTakesTheSmallerPrecision : Prop :=
  ∀ (b : Bank) (x y : NumReg b.width), x.v = true → y.v = true → x.Sound → y.Sound →
    (align x.raw.toInt x.q y.raw.toInt y.q).qc = commonPrecision x y ∧
    (align x.raw.toInt x.q y.raw.toInt y.q).a = alignedTo x (commonPrecision x y) ∧
    (align x.raw.toInt x.q y.raw.toInt y.q).b = alignedTo y (commonPrecision x y) ∧
    InRange b.width (alignedTo x (commonPrecision x y)) ∧ InRange b.width (alignedTo y (commonPrecision x y)) ∧
    x.q.toNat - (commonPrecision x y).toNat < b.width ∧ y.q.toNat - (commonPrecision x y).toNat < b.width ∧
    (alignedTo x (commonPrecision x y) = x.raw.toInt ∨ alignedTo y (commonPrecision x y) = y.raw.toInt)

/-- R112: `ADD` stores the sum of the aligned values, with overflow check, and changes nothing else. -/
def Obligations.AddStoresTheAlignedSum : Prop :=
  EncodedAs 0x10 .A (fun f => .add f.bank f.rd f.ra f.rb) ∧
  ∀ (b : Bank) (rd ra rb : RegIndex) (s : State) (p : Precision) (x y : Int), s.Running →
    p = commonPrecision (s.reg b ra) (s.reg b rb) → x = alignedTo (s.reg b ra) p → y = alignedTo (s.reg b rb) p →
    if (s.reg b ra).v = true ∧ (s.reg b rb).v = true then
      ∃ t, exec (.add b rd ra rb) s = .next t ∧
        s.StoredIn t b rd (BitVec.ofInt b.width (x + y)) p (¬ InRange b.width (x + y))
    else exec (.add b rd ra rb) s = .next (s.afterFault 3)

/-- R113: `SUB` stores the difference of the aligned values, with overflow check, and changes nothing else. -/
def Obligations.SubStoresTheAlignedDifference : Prop :=
  EncodedAs 0x11 .A (fun f => .sub f.bank f.rd f.ra f.rb) ∧
  ∀ (b : Bank) (rd ra rb : RegIndex) (s : State) (p : Precision) (x y : Int), s.Running →
    p = commonPrecision (s.reg b ra) (s.reg b rb) → x = alignedTo (s.reg b ra) p → y = alignedTo (s.reg b rb) p →
    if (s.reg b ra).v = true ∧ (s.reg b rb).v = true then
      ∃ t, exec (.sub b rd ra rb) s = .next t ∧
        s.StoredIn t b rd (BitVec.ofInt b.width (x - y)) p (¬ InRange b.width (x - y))
    else exec (.sub b rd ra rb) s = .next (s.afterFault 3)

/-- R115: `MUL` stores the product of the aligned values shifted right by the common precision, toward negative
infinity, with overflow check. -/
def Obligations.MulStoresTheNormalizedProduct : Prop :=
  EncodedAs 0x12 .A (fun f => .mul f.bank f.rd f.ra f.rb) ∧
  ∀ (b : Bank) (rd ra rb : RegIndex) (s : State) (p : Precision) (x y : Int), s.Running →
    p = commonPrecision (s.reg b ra) (s.reg b rb) → x = alignedTo (s.reg b ra) p → y = alignedTo (s.reg b rb) p →
    if (s.reg b ra).v = true ∧ (s.reg b rb).v = true then
      ∃ t, exec (.mul b rd ra rb) s = .next t ∧
        s.StoredIn t b rd (BitVec.ofInt b.width (x * y / 2 ^ p.toNat)) p (¬ InRange b.width (x * y / 2 ^ p.toNat))
    else exec (.mul b rd ra rb) s = .next (s.afterFault 3)

/-- R116, R121: `DIV` stores the quotient toward zero of the aligned values, the dividend scaled by the common
precision, with overflow check; a divisor that is zero after alignment faults. -/
def Obligations.DivStoresTheScaledQuotient : Prop :=
  EncodedAs 0x13 .A (fun f => .div f.bank f.rd f.ra f.rb) ∧
  ∀ (b : Bank) (rd ra rb : RegIndex) (s : State) (p : Precision) (x y : Int), s.Running →
    p = commonPrecision (s.reg b ra) (s.reg b rb) → x = alignedTo (s.reg b ra) p → y = alignedTo (s.reg b rb) p →
    if (s.reg b ra).v = true ∧ (s.reg b rb).v = true then
      if y = 0 then exec (.div b rd ra rb) s = .next (s.afterFault 4)
      else
        ∃ t, exec (.div b rd ra rb) s = .next t ∧
          s.StoredIn t b rd (BitVec.ofInt b.width ((x * 2 ^ p.toNat).tdiv y)) p
            (¬ InRange b.width ((x * 2 ^ p.toNat).tdiv y))
    else exec (.div b rd ra rb) s = .next (s.afterFault 3)

/-- R114, R121: `REM` stores the remainder of the division toward zero of the aligned values, which always fits, and
never sets `OVF`; a divisor that is zero after alignment faults. -/
def Obligations.RemStoresTheAlignedRemainder : Prop :=
  EncodedAs 0x14 .A (fun f => .rem f.bank f.rd f.ra f.rb) ∧
  ∀ (b : Bank) (rd ra rb : RegIndex) (s : State) (p : Precision) (x y : Int), s.Running →
    p = commonPrecision (s.reg b ra) (s.reg b rb) → x = alignedTo (s.reg b ra) p → y = alignedTo (s.reg b rb) p →
    if (s.reg b ra).v = true ∧ (s.reg b rb).v = true then
      if y = 0 then exec (.rem b rd ra rb) s = .next (s.afterFault 4)
      else
        ∃ t, exec (.rem b rd ra rb) s = .next t ∧ InRange b.width (x.tmod y) ∧
          s.StoredIn t b rd (BitVec.ofInt b.width (x.tmod y)) p False
    else exec (.rem b rd ra rb) s = .next (s.afterFault 3)

/-- R118: with both operands the same register, `SUB` gives raw 0 at its precision, and `DIV` of a nonzero number the
raw value `2^q`, which overflows at `q = N - 1` alone; `DIV` of zero faults. -/
def Obligations.SameOperandGivesZeroAndOne : Prop :=
  ∀ (b : Bank) (rd r : RegIndex) (s : State), s.Running → (s.reg b r).v = true → (s.reg b r).Sound →
    (∃ t, exec (.sub b rd r r) s = .next t ∧ s.StoredIn t b rd 0 (s.reg b r).q False) ∧
    ((s.reg b r).raw ≠ 0 → ∃ t, exec (.div b rd r r) s = .next t ∧
      s.StoredIn t b rd (BitVec.ofNat b.width (2 ^ (s.reg b r).q.toNat)) (s.reg b r).q
        ((s.reg b r).q.toNat = b.width - 1)) ∧
    ((s.reg b r).raw = 0 → exec (.div b rd r r) s = .next (s.afterFault 4))

/-- R121: `DIV` and `REM` divide by zero exactly when the right operand is zero after alignment. So a right operand of
higher precision does when it is not negative and its raw value is below `2^(rq - lq)`, nonzero ones included; one that is
zero always does, a negative one never. -/
def Obligations.DivisorIsTestedAfterAlignment : Prop :=
  ∀ (b : Bank) (rd ra rb : RegIndex) (s : State), s.Running → (s.reg b ra).v = true → (s.reg b rb).v = true →
    (if alignedTo (s.reg b rb) (commonPrecision (s.reg b ra) (s.reg b rb)) = 0 then
      exec (.div b rd ra rb) s = .next (s.afterFault 4) ∧ exec (.rem b rd ra rb) s = .next (s.afterFault 4)
    else
      (∃ t, exec (.div b rd ra rb) s = .next t ∧ t.status.fault = false) ∧
      (∃ t, exec (.rem b rd ra rb) s = .next t ∧ t.status.fault = false)) ∧
    ((s.reg b ra).q.toNat < (s.reg b rb).q.toNat → 0 ≤ (s.reg b rb).raw.toInt →
      (s.reg b rb).raw.toInt < 2 ^ ((s.reg b rb).q.toNat - (s.reg b ra).q.toNat) →
        exec (.div b rd ra rb) s = .next (s.afterFault 4) ∧ exec (.rem b rd ra rb) s = .next (s.afterFault 4)) ∧
    ((s.reg b rb).raw = 0 →
      exec (.div b rd ra rb) s = .next (s.afterFault 4) ∧ exec (.rem b rd ra rb) s = .next (s.afterFault 4)) ∧
    ((s.reg b rb).raw.toInt < 0 →
      (∃ t, exec (.div b rd ra rb) s = .next t ∧ t.status.fault = false) ∧
      (∃ t, exec (.rem b rd ra rb) s = .next t ∧ t.status.fault = false))

/-- R119: for `rd` different from `rb`, an arithmetic command that completes has the effect of `MOV rd, ra` followed by
the compound command `OP rd, rd, rb`. -/
def Obligations.CommandIsMovThenCompound : Prop :=
  ∀ op ∈ [Instr.add, Instr.sub, Instr.mul, Instr.div, Instr.rem],
    ∀ (b : Bank) (rd ra rb : RegIndex) (s t : State), s.Running → rd ≠ rb →
      exec (op b rd ra rb) s = .next t → t.status.fault = false →
        ∃ m, exec (.mov b rd ra) s = .next m ∧ exec (op b rd rd rb) m = .next t

/-- The addition and subtraction identity (R123 (a)): when the left precision is not above the right one, adding and then
subtracting the same register gives the left number back, wrapped sums included. The destination must not be the right
operand, which the rule leaves unsaid (log 19). -/
def Obligations.AddThenSubtractGivesTheNumberBack : Prop :=
  ∀ (b : Bank) (rd ra rb : RegIndex) (s : State), s.Running → rd ≠ rb →
    (s.reg b ra).v = true → (s.reg b rb).v = true → (s.reg b ra).q.toNat ≤ (s.reg b rb).q.toNat →
      ∃ t u, exec (.add b rd ra rb) s = .next t ∧ exec (.sub b rd rd rb) t = .next u ∧
        (u.reg b rd).raw = (s.reg b ra).raw ∧ (u.reg b rd).q = (s.reg b ra).q

/-- The product is rounded down by less than one unit (R123 (b)): with equal precisions and no overflow the stored number
is at most the exact product and within `2^-q` of it. -/
def Obligations.MulIsWithinOneUnitBelowTheProduct : Prop :=
  ∀ (b : Bank) (rd ra rb : RegIndex) (s t : State), s.Running → (s.reg b ra).v = true → (s.reg b rb).v = true →
    (s.reg b ra).q = (s.reg b rb).q → exec (.mul b rd ra rb) s = .next t → t.status.ovf = false →
      (t.reg b rd).number ≤ (s.reg b ra).number * (s.reg b rb).number ∧
      (s.reg b ra).number * (s.reg b rb).number < (t.reg b rd).number + 1 / 2 ^ (s.reg b ra).q.toNat

/-- R124: on aligned operands of a bank and a precision of that bank, the product, the scaled dividend and the quotient
fit `2N` bits, so narrowing is the only overflow of `MUL` and `DIV`. -/
def Obligations.WideIntermediatesFit : Prop :=
  ∀ (b : Bank) (x y : Int) (p : Nat), InRange b.width x → InRange b.width y → p ≤ b.width - 1 →
    |x * y| ≤ 2 ^ (2 * b.width - 2) ∧ InRange b.wideWidth (x * y) ∧ InRange b.wideWidth (asr (x * y) p) ∧
    |shl x p| ≤ 2 ^ (2 * b.width - 2) ∧ InRange b.wideWidth (shl x p) ∧
    (y ≠ 0 → |tdiv (shl x p) y| ≤ |shl x p| ∧ InRange b.wideWidth (tdiv (shl x p) y))

/-! ## Comparison -/

/-- R142 to R147, R140, R141: on constructed registers each comparison writes 1 or 0 to `Y` by its relation on the
aligned values, sets `YV` and changes nothing else; on an unconstructed one it faults. -/
def Obligations.ComparisonsWriteTheirTruthValue : Prop :=
  (EncodedAs 0x18 .P (fun f => .eq f.bank f.ra f.rb) ∧ EncodedAs 0x19 .P (fun f => .ne f.bank f.ra f.rb) ∧
    EncodedAs 0x1A .P (fun f => .lt f.bank f.ra f.rb) ∧ EncodedAs 0x1B .P (fun f => .gt f.bank f.ra f.rb) ∧
    EncodedAs 0x1C .P (fun f => .le f.bank f.ra f.rb) ∧ EncodedAs 0x1D .P (fun f => .ge f.bank f.ra f.rb)) ∧
  ∀ (b : Bank) (ra rb : RegIndex) (s : State) (p : Precision) (x y : Int), s.Running →
    p = commonPrecision (s.reg b ra) (s.reg b rb) → x = alignedTo (s.reg b ra) p → y = alignedTo (s.reg b rb) p →
    if (s.reg b ra).v = true ∧ (s.reg b rb).v = true then
      exec (.eq b ra rb) s = .next (s.afterY (if x = y then 1 else 0)) ∧
      exec (.ne b ra rb) s = .next (s.afterY (if x = y then 0 else 1)) ∧
      exec (.lt b ra rb) s = .next (s.afterY (if x < y then 1 else 0)) ∧
      exec (.gt b ra rb) s = .next (s.afterY (if y < x then 1 else 0)) ∧
      exec (.le b ra rb) s = .next (s.afterY (if x ≤ y then 1 else 0)) ∧
      exec (.ge b ra rb) s = .next (s.afterY (if y ≤ x then 1 else 0))
    else
      ∀ i ∈ [Instr.eq b ra rb, .ne b ra rb, .lt b ra rb, .gt b ra rb, .le b ra rb, .ge b ra rb],
        exec i s = .next (s.afterFault 3)

/-- The laws of R148, with the negations of R143, R146 and R147: exactly one of `LT`, `EQ`, `GT` gives 1; `NE`, `LE`, `GE`
give the opposite of `EQ`, `GT`, `LT`; swapping the operands swaps `LT` and `GT` and keeps `EQ`; a register equals
itself. -/
def Obligations.ComparisonLaws : Prop :=
  ∀ (b : Bank) (ra rb : RegIndex) (s : State), (s.reg b ra).v = true → (s.reg b rb).v = true →
    (yAfter (.lt b ra rb) s, yAfter (.eq b ra rb) s, yAfter (.gt b ra rb) s) ∈
      [(some 1, some 0, some 0), (some 0, some 1, some 0), (some 0, some 0, some 1)] ∧
    (yAfter (.ne b ra rb) s = some 1 ↔ yAfter (.eq b ra rb) s = some 0) ∧
    (yAfter (.le b ra rb) s = some 1 ↔ yAfter (.gt b ra rb) s = some 0) ∧
    (yAfter (.ge b ra rb) s = some 1 ↔ yAfter (.lt b ra rb) s = some 0) ∧
    yAfter (.lt b ra rb) s = yAfter (.gt b rb ra) s ∧ yAfter (.eq b ra rb) s = yAfter (.eq b rb ra) s ∧
    yAfter (.eq b ra ra) s = some 1

/-- Equality is not transitive across precisions (R148). -/
def Obligations.EqualityIsNotTransitive : Prop :=
  ∃ (s : State) (x y z : RegIndex), s.Inv ∧ s.Running ∧
    (s.reg .W x).v = true ∧ (s.reg .W y).v = true ∧ (s.reg .W z).v = true ∧
    yAfter (.eq .W y x) s = some 1 ∧ yAfter (.eq .W x z) s = some 1 ∧ yAfter (.eq .W y z) s = some 0

/-! ## Conversion -/

/-- R157: `TOINT` writes the floor of the number, as a signed 64-bit integer; an unconstructed register faults. -/
def Obligations.TointWritesTheFloor : Prop :=
  EncodedAs 0x20 .V (fun f => .toint f.bank f.ra) ∧
  ∀ (b : Bank) (ra : RegIndex) (s : State), s.Running →
    if (s.reg b ra).v = true then
      ∃ y : PortWord, exec (.toint b ra) s = .next (s.afterY y) ∧ y.toInt = ⌊(s.reg b ra).number⌋ ∧
        InRange b.width y.toInt
    else exec (.toint b ra) s = .next (s.afterFault 3)

/-- R158: `FRAC` writes the low `q` bits of the raw value as a decimal fraction of `d = QD(q)` digits, by one extra digit
and half up, which is the exact fraction rounded half up, but truncated at nine digits; an unconstructed register
faults. -/
def Obligations.FracWritesTheDecimalFraction : Prop :=
  EncodedAs 0x21 .V (fun f => .frac f.bank f.ra) ∧
  ∀ (b : Bank) (ra : RegIndex) (s : State) (q d f : Nat), s.Running → (s.reg b ra).Sound →
    q = (s.reg b ra).q.toNat → d = (QD (s.reg b ra).q).toNat →
    (f : Int) = (s.reg b ra).raw.toInt - (s.reg b ra).raw.toInt / 2 ^ q * 2 ^ q →
    if (s.reg b ra).v = true then
      ∃ y : PortWord, exec (.frac b ra) s = .next (s.afterY y) ∧
        y.toNat = (if d < 9 then (f * 10 ^ (d + 1) / 2 ^ q + 5) / 10 else f * 10 ^ 9 / 2 ^ q) ∧
        (d < 9 → (y.toNat : Int) = ⌊(f : ℚ) / 2 ^ q * 10 ^ d + 1 / 2⌋)
    else exec (.frac b ra) s = .next (s.afterFault 3)

/-- With fewer than nine digits, `FRAC` is the exact fraction rounded half up (R158, its derived sentence): with `TOINT`,
the number rounded half up to `d` decimal digits. -/
def Obligations.TointAndFracAreTheRoundedNumber : Prop :=
  ∀ (b : Bank) (ra : RegIndex) (s : State) (d : Nat), s.Running → (s.reg b ra).v = true → (s.reg b ra).Sound →
    d = (QD (s.reg b ra).q).toNat → d < 9 →
    ∃ y z : PortWord, exec (.toint b ra) s = .next (s.afterY y) ∧ exec (.frac b ra) s = .next (s.afterY z) ∧
      y.toInt * 10 ^ d + z.toNat = ⌊(s.reg b ra).number * 10 ^ d + 1 / 2⌋

/-- R160: `FRAC` never exceeds `10^d`, the divisor `FRACDIV` gives. It equals it exactly when `d < 9` and the fraction is
within half a digit of 1, which happens only for the six precisions the rule lists, and there only when all fractional
bits are set. -/
def Obligations.FracReachesItsDivisorInSixCases : Prop :=
  ∀ (b : Bank) (ra : RegIndex) (s : State) (q d f : Nat), s.Running → (s.reg b ra).v = true → (s.reg b ra).Sound →
    q = (s.reg b ra).q.toNat → d = (QD (s.reg b ra).q).toNat → f = (s.reg b ra).raw.toNat % 2 ^ q →
    ∃ y z : PortWord, exec (.frac b ra) s = .next (s.afterY y) ∧ exec (.fracdiv b ra) s = .next (s.afterY z) ∧
      z.toNat = 10 ^ d ∧ y.toNat ≤ 10 ^ d ∧
      (y.toNat = 10 ^ d ↔ d < 9 ∧ (10 ^ (d + 1) - 5) * 2 ^ q ≤ f * 10 ^ (d + 1)) ∧
      (y.toNat = 10 ^ d ↔ q ∈ [1, 8, 11, 18, 21, 28] ∧ f = 2 ^ q - 1)

/-- R159: `FRACDIV` writes `10^QD(q)`, whatever the raw value; an unconstructed register faults. -/
def Obligations.FracdivWritesThePowerOfTen : Prop :=
  EncodedAs 0x22 .V (fun f => .fracdiv f.bank f.ra) ∧
  ∀ (b : Bank) (ra : RegIndex) (s : State), s.Running → (s.reg b ra).Sound →
    if (s.reg b ra).v = true then
      exec (.fracdiv b ra) s = .next (s.afterY (BitVec.ofNat 64 (10 ^ (QD (s.reg b ra).q).toNat)))
    else exec (.fracdiv b ra) s = .next (s.afterFault 3)

/-- R161, R163: `TOF64` writes the number rounded once to binary64, zero as `+0`; an unconstructed register faults. -/
def Obligations.Tof64WritesTheNearestBinary64 : Prop :=
  EncodedAs 0x24 .V (fun f => .tof64 f.bank f.ra) ∧
  ∀ (b : Bank) (ra : RegIndex) (s : State), s.Running → (s.reg b ra).Sound →
    if (s.reg b ra).v = true then
      ∃ y : PortWord, exec (.tof64 b ra) s = .next (s.afterY y) ∧
        if (s.reg b ra).raw = 0 then y = 0
        else RoundsTo 53 1023 (s.reg b ra).number (y.getLsbD 63) (y.extractLsb' 52 11).toNat
          (y.extractLsb' 0 52).toNat
    else exec (.tof64 b ra) s = .next (s.afterFault 3)

/-- R162, R163: `TOF32` writes the number rounded once to binary32 in the low half of `Y`, zeros above; an unconstructed
register faults. -/
def Obligations.Tof32WritesTheNearestBinary32 : Prop :=
  EncodedAs 0x23 .V (fun f => .tof32 f.bank f.ra) ∧
  ∀ (b : Bank) (ra : RegIndex) (s : State), s.Running → (s.reg b ra).Sound →
    if (s.reg b ra).v = true then
      ∃ y : PortWord, exec (.tof32 b ra) s = .next (s.afterY y) ∧ y.extractLsb' 32 32 = 0 ∧
        if (s.reg b ra).raw = 0 then y = 0
        else RoundsTo 24 127 (s.reg b ra).number (y.getLsbD 31) (y.extractLsb' 23 8).toNat
          (y.extractLsb' 0 23).toNat
    else exec (.tof32 b ra) s = .next (s.afterFault 3)

/-- In bank W `TOF64` is exact (R161), and its pattern brings the number back through `FROMF64` at the same precision: no
information of a 32-bit number is lost by way of binary64. -/
def Obligations.Binary64RoundTripInBankW : Prop :=
  ∀ (rd ra : RegIndex) (s : State), s.Running → (s.reg .W ra).v = true → (s.reg .W ra).Sound →
    ∃ y : PortWord, exec (.tof64 .W ra) s = .next (s.afterY y) ∧ float64Number y = some (s.reg .W ra).number ∧
      ∀ u : State, u.Running → u.port.in0 = y →
        ∃ t, exec (.fromf64 .W rd (s.reg .W ra).q) u = .next t ∧
          u.StoredIn t .W rd (s.reg .W ra).raw (s.reg .W ra).q False

/-! ## Tables and status -/

/-- R51: `QD(q)` is the least `d` with `4^q < 10^(2d+1)`, capped at 9. -/
def Obligations.DigitTableFollowsItsFormula : Prop :=
  ∀ q : Precision, (QD q).toNat ≤ 9 ∧ ((QD q).toNat < 9 → 4 ^ q.toNat < 10 ^ (2 * (QD q).toNat + 1)) ∧
    (0 < (QD q).toNat → 10 ^ (2 * (QD q).toNat - 1) ≤ 4 ^ q.toNat)

/-- R52: the powers of ten. -/
def Obligations.PowerTableHoldsThePowersOfTen : Prop :=
  (List.range 10).map P10 = [1, 10, 100, 1000, 10000, 100000, 1000000, 10000000, 100000000, 1000000000]

/-- The layout of `STATUS` (R29): every field at its bits, the reserved bits zero. -/
def Obligations.StatusWordLayout : Prop :=
  ∀ s : State, s.status.word.getLsbD 0 = s.status.fault ∧ s.status.word.extractLsb' 1 3 = s.status.cause ∧
    s.status.word.getLsbD 4 = s.status.ovf ∧ s.status.word.getLsbD 5 = s.status.yv ∧
    s.status.word.extractLsb' 6 26 = 0
end

