-- ==== Sys2Proof/Laws/Encoding.lean ====
section
/-! SUPPORT. The fields of a command word: splitting and assembling are inverse, and what accepting a word can answer. -/

namespace Sys2Proof

/-- The low bits of a concatenation. -/
theorem extract_append_lo {m n : Nat} (a : BitVec m) (b : BitVec n) : (a ++ b).extractLsb' 0 n = b := by
  ext i hi; simp [BitVec.getElem_extractLsb', BitVec.getLsbD_append, hi]

/-- The bits of a concatenation above its low part. -/
theorem extract_append_hi {m n : Nat} (a : BitVec m) (b : BitVec n) (k w : Nat) :
    (a ++ b).extractLsb' (n + k) w = a.extractLsb' k w := by
  ext i hi; simp [BitVec.getElem_extractLsb', BitVec.getLsbD_append, Nat.add_assoc]

/-- The fields of an assembled word are the ones it was assembled from (R66, R68). -/
theorem fields_assemble (f : Fields) : fieldsOf (assemble f) = f := by
  obtain ⟨op, w, rd, ra, rb, q, z⟩ := f
  have hz : (assemble ⟨op, w, rd, ra, rb, q, z⟩).extractLsb' 0 10 = z := extract_append_lo (m := 22) _ z
  have hq : (assemble ⟨op, w, rd, ra, rb, q, z⟩).extractLsb' 10 6 = q :=
    (extract_append_hi (m := 22) (op ++ w ++ rd ++ ra ++ rb ++ q) z 0 6).trans (extract_append_lo (m := 16) _ q)
  have hrb : (assemble ⟨op, w, rd, ra, rb, q, z⟩).extractLsb' 16 3 = rb :=
    (extract_append_hi (m := 22) (op ++ w ++ rd ++ ra ++ rb ++ q) z 6 3).trans <|
    (extract_append_hi (m := 16) (op ++ w ++ rd ++ ra ++ rb) q 0 3).trans (extract_append_lo (m := 13) _ rb)
  have hra : (assemble ⟨op, w, rd, ra, rb, q, z⟩).extractLsb' 19 3 = ra :=
    (extract_append_hi (m := 22) (op ++ w ++ rd ++ ra ++ rb ++ q) z 9 3).trans <|
    (extract_append_hi (m := 16) (op ++ w ++ rd ++ ra ++ rb) q 3 3).trans <|
    (extract_append_hi (m := 13) (op ++ w ++ rd ++ ra) rb 0 3).trans (extract_append_lo (m := 10) _ ra)
  have hrd : (assemble ⟨op, w, rd, ra, rb, q, z⟩).extractLsb' 22 3 = rd :=
    (extract_append_hi (m := 22) (op ++ w ++ rd ++ ra ++ rb ++ q) z 12 3).trans <|
    (extract_append_hi (m := 16) (op ++ w ++ rd ++ ra ++ rb) q 6 3).trans <|
    (extract_append_hi (m := 13) (op ++ w ++ rd ++ ra) rb 3 3).trans <|
    (extract_append_hi (m := 10) (op ++ w ++ rd) ra 0 3).trans (extract_append_lo (m := 7) _ rd)
  have hw : (assemble ⟨op, w, rd, ra, rb, q, z⟩).extractLsb' 25 1 = w :=
    (extract_append_hi (m := 22) (op ++ w ++ rd ++ ra ++ rb ++ q) z 15 1).trans <|
    (extract_append_hi (m := 16) (op ++ w ++ rd ++ ra ++ rb) q 9 1).trans <|
    (extract_append_hi (m := 13) (op ++ w ++ rd ++ ra) rb 6 1).trans <|
    (extract_append_hi (m := 10) (op ++ w ++ rd) ra 3 1).trans <|
    (extract_append_hi (m := 7) (op ++ w) rd 0 1).trans (extract_append_lo (m := 6) op w)
  have hop : (assemble ⟨op, w, rd, ra, rb, q, z⟩).extractLsb' 26 6 = op :=
    (extract_append_hi (m := 22) (op ++ w ++ rd ++ ra ++ rb ++ q) z 16 6).trans <|
    (extract_append_hi (m := 16) (op ++ w ++ rd ++ ra ++ rb) q 10 6).trans <|
    (extract_append_hi (m := 13) (op ++ w ++ rd ++ ra) rb 7 6).trans <|
    (extract_append_hi (m := 10) (op ++ w ++ rd) ra 4 6).trans <|
    (extract_append_hi (m := 7) (op ++ w) rd 1 6).trans <|
    (extract_append_hi (m := 6) op w 0 6).trans (by simp)
  simp only [fieldsOf, hz, hq, hrb, hra, hrd, hw, hop]

/-- Two adjoining slices of a word are one slice. -/
theorem append_extract (c : BitVec 32) (k m n : Nat) :
    c.extractLsb' (k + n) m ++ c.extractLsb' k n = c.extractLsb' k (m + n) := by
  ext i hi
  simp only [BitVec.getElem_append, BitVec.getElem_extractLsb']
  split
  · rfl
  · congr 1; omega

/-- A word is assembled from its fields (R66, R68). -/
theorem assemble_fields (c : CommandWord) : assemble (fieldsOf c) = c := by
  have h1 := append_extract c 25 6 1
  have h2 := append_extract c 22 7 3
  have h3 := append_extract c 19 10 3
  have h4 := append_extract c 16 13 3
  have h5 := append_extract c 10 16 6
  have h6 := append_extract c 0 22 10
  simp only [Nat.reduceAdd, Nat.zero_add] at h1 h2 h3 h4 h5 h6
  simp only [assemble, fieldsOf]
  rw [h1, h2, h3, h4, h5, h6]; simp

/-- What accepting a known opcode can answer (R70). -/
theorem Fields.accept_eq (f : Fields) (fmt : Format) (i : Instr) :
    (f.z = 0#10 ∧ fmt.unusedZero f = true ∧ f.accept fmt i = .ok i) ∨
    (¬(f.z = 0#10 ∧ fmt.unusedZero f = true) ∧ ∃ r, f.accept fmt i = .error r) := by
  by_cases hz : f.z = 0#10
  · by_cases hu : fmt.unusedZero f = true
    · exact .inl ⟨hz, hu, by simp [Fields.accept, hz, hu]⟩
    · exact .inr ⟨fun h => hu h.2, .unusedField, by simp [Fields.accept, hz, hu]⟩
  · exact .inr ⟨fun h => hz h.1, .reservedBits, by simp [Fields.accept, hz]⟩

@[simp] theorem Fields.bank_of_bit (b : Bank) (op : BitVec 6) (rd ra rb : RegIndex) (q : Precision) (z : BitVec 10) :
    (⟨op, b.bit, rd, ra, rb, q, z⟩ : Fields).bank = b := by
  cases b <;> rfl

end Sys2Proof
end

