-- ==== Sys2Proof/Laws/State.lean ====
section
/-! SUPPORT. One lemma per field per update of the state, and the register laws: a register read after a write. No later proof
unfolds a record update. -/

namespace Sys2Proof.Machine

/-! ## Register writes -/

@[simp] theorem State.setReg_y (s : State) (b : Bank) (i : RegIndex) (r : NumReg b.width) :
    (s.setReg b i r).y = s.y := by cases b <;> rfl

@[simp] theorem State.setReg_status (s : State) (b : Bank) (i : RegIndex) (r : NumReg b.width) :
    (s.setReg b i r).status = s.status := by cases b <;> rfl

@[simp] theorem State.setReg_fcmd (s : State) (b : Bank) (i : RegIndex) (r : NumReg b.width) :
    (s.setReg b i r).fcmd = s.fcmd := by cases b <;> rfl

@[simp] theorem State.setReg_port (s : State) (b : Bank) (i : RegIndex) (r : NumReg b.width) :
    (s.setReg b i r).port = s.port := by cases b <;> rfl

@[simp] theorem State.setReg_events (s : State) (b : Bank) (i : RegIndex) (r : NumReg b.width) :
    (s.setReg b i r).events = s.events := by cases b <;> rfl

@[simp] theorem State.writeReg_y (s : State) (b : Bank) (i : RegIndex) (raw : BitVec b.width) (p : Precision) :
    (s.writeReg b i raw p).y = s.y := by cases b <;> rfl

@[simp] theorem State.writeReg_status (s : State) (b : Bank) (i : RegIndex) (raw : BitVec b.width) (p : Precision) :
    (s.writeReg b i raw p).status = s.status := by cases b <;> rfl

@[simp] theorem State.writeReg_fcmd (s : State) (b : Bank) (i : RegIndex) (raw : BitVec b.width) (p : Precision) :
    (s.writeReg b i raw p).fcmd = s.fcmd := by cases b <;> rfl

@[simp] theorem State.writeReg_port (s : State) (b : Bank) (i : RegIndex) (raw : BitVec b.width) (p : Precision) :
    (s.writeReg b i raw p).port = s.port := by cases b <;> rfl

@[simp] theorem State.writeReg_events (s : State) (b : Bank) (i : RegIndex) (raw : BitVec b.width) (p : Precision) :
    (s.writeReg b i raw p).events = s.events := by cases b <;> rfl

theorem State.reg_setReg (s : State) (b : Bank) (i j : RegIndex) (r : NumReg b.width) :
    (s.setReg b i r).reg b j = if j = i then r else s.reg b j := by
  have key : i.toNat = j.toNat ↔ j = i := ⟨fun h => BitVec.eq_of_toNat_eq h.symm, fun h => by rw [h]⟩
  cases b <;> simp [State.setReg, State.reg, Vector.getElem_set, key]

@[simp] theorem State.reg_setReg_same (s : State) (b : Bank) (i : RegIndex) (r : NumReg b.width) :
    (s.setReg b i r).reg b i = r := by
  rw [State.reg_setReg, if_pos rfl]

/-- A write leaves every other register of either bank as it was: the banks do not alias (R21). -/
theorem State.reg_setReg_other (s : State) (b c : Bank) (i j : RegIndex) (r : NumReg b.width)
    (h : ¬(c = b ∧ j = i)) : (s.setReg b i r).reg c j = s.reg c j := by
  cases b <;> cases c
  case W.L => rfl
  case L.W => rfl
  all_goals rw [State.reg_setReg, if_neg fun hj => h ⟨rfl, hj⟩]

@[simp] theorem State.setReg_setReg (s : State) (b : Bank) (i : RegIndex) (r r' : NumReg b.width) :
    (s.setReg b i r).setReg b i r' = s.setReg b i r' := by
  cases b <;> simp [State.setReg]

@[simp] theorem State.reg_writeReg_same (s : State) (b : Bank) (i : RegIndex) (raw : BitVec b.width) (p : Precision) :
    (s.writeReg b i raw p).reg b i = { raw := raw, q := p, qd := QD p, v := true } :=
  State.reg_setReg_same ..

theorem State.reg_writeReg_other (s : State) (b c : Bank) (i j : RegIndex) (raw : BitVec b.width) (p : Precision)
    (h : ¬(c = b ∧ j = i)) : (s.writeReg b i raw p).reg c j = s.reg c j :=
  State.reg_setReg_other s b c i j _ h

/-- A write of one bank leaves the other bank's storage alone (R21). -/
theorem State.writeReg_W_bankL (s : State) (i : RegIndex) (raw : BitVec 32) (p : Precision) :
    (s.writeReg .W i raw p).bankL = s.bankL := rfl

theorem State.writeReg_L_bankW (s : State) (i : RegIndex) (raw : BitVec 64) (p : Precision) :
    (s.writeReg .L i raw p).bankW = s.bankW := rfl

/-! ## `Y` -/

@[simp] theorem State.writeY_bankW (s : State) (v : PortWord) :
    (s.writeY v).bankW = s.bankW := rfl

@[simp] theorem State.writeY_bankL (s : State) (v : PortWord) :
    (s.writeY v).bankL = s.bankL := rfl

@[simp] theorem State.writeY_y (s : State) (v : PortWord) :
    (s.writeY v).y = v := rfl

@[simp] theorem State.writeY_fcmd (s : State) (v : PortWord) :
    (s.writeY v).fcmd = s.fcmd := rfl

@[simp] theorem State.writeY_port (s : State) (v : PortWord) :
    (s.writeY v).port = s.port := rfl

@[simp] theorem State.writeY_events (s : State) (v : PortWord) :
    (s.writeY v).events = s.events := rfl

@[simp] theorem State.writeY_status_fault (s : State) (v : PortWord) :
    (s.writeY v).status.fault = s.status.fault := rfl

@[simp] theorem State.writeY_status_cause (s : State) (v : PortWord) :
    (s.writeY v).status.cause = s.status.cause := rfl

@[simp] theorem State.writeY_status_ovf (s : State) (v : PortWord) :
    (s.writeY v).status.ovf = s.status.ovf := rfl

@[simp] theorem State.writeY_status_yv (s : State) (v : PortWord) :
    (s.writeY v).status.yv = true := rfl

@[simp] theorem State.writeY_reg (s : State) (v : PortWord) (b : Bank) (i : RegIndex) :
    (s.writeY v).reg b i = s.reg b i := rfl

/-! ## Fault entry -/

@[simp] theorem State.raise_bankW (s : State) (c : Cause) :
    (s.raise c).bankW = s.bankW := rfl

@[simp] theorem State.raise_bankL (s : State) (c : Cause) :
    (s.raise c).bankL = s.bankL := rfl

@[simp] theorem State.raise_y (s : State) (c : Cause) :
    (s.raise c).y = s.y := rfl

@[simp] theorem State.raise_fcmd (s : State) (c : Cause) :
    (s.raise c).fcmd = s.port.word := rfl

@[simp] theorem State.raise_port (s : State) (c : Cause) :
    (s.raise c).port = s.port := rfl

@[simp] theorem State.raise_events (s : State) (c : Cause) :
    (s.raise c).events = s.events := rfl

@[simp] theorem State.raise_status_fault (s : State) (c : Cause) :
    (s.raise c).status.fault = true := rfl

@[simp] theorem State.raise_status_cause (s : State) (c : Cause) :
    (s.raise c).status.cause = c.code := rfl

@[simp] theorem State.raise_status_ovf (s : State) (c : Cause) :
    (s.raise c).status.ovf = s.status.ovf := rfl

@[simp] theorem State.raise_status_yv (s : State) (c : Cause) :
    (s.raise c).status.yv = s.status.yv := rfl

@[simp] theorem State.raise_reg (s : State) (c : Cause) (b : Bank) (i : RegIndex) :
    (s.raise c).reg b i = s.reg b i := rfl

/-! ## The overflow flag -/

@[simp] theorem State.clearOverflow_bankW (s : State) :
    (s.clearOverflow).bankW = s.bankW := rfl

@[simp] theorem State.clearOverflow_bankL (s : State) :
    (s.clearOverflow).bankL = s.bankL := rfl

@[simp] theorem State.clearOverflow_y (s : State) :
    (s.clearOverflow).y = s.y := rfl

@[simp] theorem State.clearOverflow_fcmd (s : State) :
    (s.clearOverflow).fcmd = s.fcmd := rfl

@[simp] theorem State.clearOverflow_port (s : State) :
    (s.clearOverflow).port = s.port := rfl

@[simp] theorem State.clearOverflow_events (s : State) :
    (s.clearOverflow).events = s.events := rfl

@[simp] theorem State.clearOverflow_status_fault (s : State) :
    (s.clearOverflow).status.fault = s.status.fault := rfl

@[simp] theorem State.clearOverflow_status_cause (s : State) :
    (s.clearOverflow).status.cause = s.status.cause := rfl

@[simp] theorem State.clearOverflow_status_ovf (s : State) :
    (s.clearOverflow).status.ovf = false := rfl

@[simp] theorem State.clearOverflow_status_yv (s : State) :
    (s.clearOverflow).status.yv = s.status.yv := rfl

@[simp] theorem State.clearOverflow_reg (s : State) (b : Bank) (i : RegIndex) :
    (s.clearOverflow).reg b i = s.reg b i := rfl

/-! ## The host's side -/

@[simp] theorem State.deliver_bankW (s : State) (c : Command) (rest : List Event) :
    (s.deliver c rest).bankW = s.bankW := rfl

@[simp] theorem State.deliver_bankL (s : State) (c : Command) (rest : List Event) :
    (s.deliver c rest).bankL = s.bankL := rfl

@[simp] theorem State.deliver_y (s : State) (c : Command) (rest : List Event) :
    (s.deliver c rest).y = s.y := rfl

@[simp] theorem State.deliver_fcmd (s : State) (c : Command) (rest : List Event) :
    (s.deliver c rest).fcmd = s.fcmd := rfl

@[simp] theorem State.deliver_port (s : State) (c : Command) (rest : List Event) :
    (s.deliver c rest).port = c := rfl

@[simp] theorem State.deliver_events (s : State) (c : Command) (rest : List Event) :
    (s.deliver c rest).events = rest := rfl

@[simp] theorem State.deliver_status_fault (s : State) (c : Command) (rest : List Event) :
    (s.deliver c rest).status.fault = s.status.fault := rfl

@[simp] theorem State.deliver_status_cause (s : State) (c : Command) (rest : List Event) :
    (s.deliver c rest).status.cause = s.status.cause := rfl

@[simp] theorem State.deliver_status_ovf (s : State) (c : Command) (rest : List Event) :
    (s.deliver c rest).status.ovf = s.status.ovf := rfl

@[simp] theorem State.deliver_status_yv (s : State) (c : Command) (rest : List Event) :
    (s.deliver c rest).status.yv = s.status.yv := rfl

@[simp] theorem State.deliver_reg (s : State) (c : Command) (rest : List Event) (b : Bank) (i : RegIndex) :
    (s.deliver c rest).reg b i = s.reg b i := rfl

/-! ## A command ignored -/

@[simp] theorem State.discard_bankW (s : State) (rest : List Event) :
    (s.discard rest).bankW = s.bankW := rfl

@[simp] theorem State.discard_bankL (s : State) (rest : List Event) :
    (s.discard rest).bankL = s.bankL := rfl

@[simp] theorem State.discard_y (s : State) (rest : List Event) :
    (s.discard rest).y = s.y := rfl

@[simp] theorem State.discard_fcmd (s : State) (rest : List Event) :
    (s.discard rest).fcmd = s.fcmd := rfl

@[simp] theorem State.discard_port (s : State) (rest : List Event) :
    (s.discard rest).port = s.port := rfl

@[simp] theorem State.discard_events (s : State) (rest : List Event) :
    (s.discard rest).events = rest := rfl

@[simp] theorem State.discard_status_fault (s : State) (rest : List Event) :
    (s.discard rest).status.fault = s.status.fault := rfl

@[simp] theorem State.discard_status_cause (s : State) (rest : List Event) :
    (s.discard rest).status.cause = s.status.cause := rfl

@[simp] theorem State.discard_status_ovf (s : State) (rest : List Event) :
    (s.discard rest).status.ovf = s.status.ovf := rfl

@[simp] theorem State.discard_status_yv (s : State) (rest : List Event) :
    (s.discard rest).status.yv = s.status.yv := rfl

@[simp] theorem State.discard_reg (s : State) (rest : List Event) (b : Bank) (i : RegIndex) :
    (s.discard rest).reg b i = s.reg b i := rfl

/-! ## A command issued -/

@[simp] theorem State.issue_bankW (s : State) (w : CommandWord) :
    (s.issue w).bankW = s.bankW := rfl

@[simp] theorem State.issue_bankL (s : State) (w : CommandWord) :
    (s.issue w).bankL = s.bankL := rfl

@[simp] theorem State.issue_y (s : State) (w : CommandWord) :
    (s.issue w).y = s.y := rfl

@[simp] theorem State.issue_fcmd (s : State) (w : CommandWord) :
    (s.issue w).fcmd = s.fcmd := rfl

@[simp] theorem State.issue_port (s : State) (w : CommandWord) :
    (s.issue w).port = s.port := rfl

@[simp] theorem State.issue_events (s : State) (w : CommandWord) :
    (s.issue w).events = .command { s.port with word := w } :: s.events := rfl

@[simp] theorem State.issue_status_fault (s : State) (w : CommandWord) :
    (s.issue w).status.fault = s.status.fault := rfl

@[simp] theorem State.issue_status_cause (s : State) (w : CommandWord) :
    (s.issue w).status.cause = s.status.cause := rfl

@[simp] theorem State.issue_status_ovf (s : State) (w : CommandWord) :
    (s.issue w).status.ovf = s.status.ovf := rfl

@[simp] theorem State.issue_status_yv (s : State) (w : CommandWord) :
    (s.issue w).status.yv = s.status.yv := rfl

@[simp] theorem State.issue_reg (s : State) (w : CommandWord) (b : Bank) (i : RegIndex) :
    (s.issue w).reg b i = s.reg b i := rfl

/-! ## The overflow check -/

/-- What the overflow check does: nothing in range, `OVF` set out of range (R10). -/
theorem State.checkOverflow_eq (s : State) (n : Nat) (z : Int) :
    (InRange n z ∧ s.checkOverflow n z = s) ∨
    (¬ InRange n z ∧ s.checkOverflow n z = { s with status := { s.status with ovf := true } }) := by
  by_cases h : InRange n z
  · exact .inl ⟨h, if_pos h⟩
  · exact .inr ⟨h, if_neg h⟩

theorem State.checkOverflow_ovf (s : State) (n : Nat) (z : Int) :
    (s.checkOverflow n z).status.ovf = true ↔ s.status.ovf = true ∨ ¬ InRange n z := by
  rcases s.checkOverflow_eq n z with ⟨h, e⟩ | ⟨h, e⟩ <;> simp [e, h]

@[simp] theorem State.checkOverflow_bankW (s : State) (n : Nat) (z : Int) :
    (s.checkOverflow n z).bankW = s.bankW := by
  rcases s.checkOverflow_eq n z with ⟨_, e⟩ | ⟨_, e⟩ <;> rw [e]

@[simp] theorem State.checkOverflow_bankL (s : State) (n : Nat) (z : Int) :
    (s.checkOverflow n z).bankL = s.bankL := by
  rcases s.checkOverflow_eq n z with ⟨_, e⟩ | ⟨_, e⟩ <;> rw [e]

@[simp] theorem State.checkOverflow_y (s : State) (n : Nat) (z : Int) :
    (s.checkOverflow n z).y = s.y := by
  rcases s.checkOverflow_eq n z with ⟨_, e⟩ | ⟨_, e⟩ <;> rw [e]

@[simp] theorem State.checkOverflow_fcmd (s : State) (n : Nat) (z : Int) :
    (s.checkOverflow n z).fcmd = s.fcmd := by
  rcases s.checkOverflow_eq n z with ⟨_, e⟩ | ⟨_, e⟩ <;> rw [e]

@[simp] theorem State.checkOverflow_port (s : State) (n : Nat) (z : Int) :
    (s.checkOverflow n z).port = s.port := by
  rcases s.checkOverflow_eq n z with ⟨_, e⟩ | ⟨_, e⟩ <;> rw [e]

@[simp] theorem State.checkOverflow_events (s : State) (n : Nat) (z : Int) :
    (s.checkOverflow n z).events = s.events := by
  rcases s.checkOverflow_eq n z with ⟨_, e⟩ | ⟨_, e⟩ <;> rw [e]

@[simp] theorem State.checkOverflow_status_fault (s : State) (n : Nat) (z : Int) :
    (s.checkOverflow n z).status.fault = s.status.fault := by
  rcases s.checkOverflow_eq n z with ⟨_, e⟩ | ⟨_, e⟩ <;> rw [e]

@[simp] theorem State.checkOverflow_status_cause (s : State) (n : Nat) (z : Int) :
    (s.checkOverflow n z).status.cause = s.status.cause := by
  rcases s.checkOverflow_eq n z with ⟨_, e⟩ | ⟨_, e⟩ <;> rw [e]

@[simp] theorem State.checkOverflow_status_yv (s : State) (n : Nat) (z : Int) :
    (s.checkOverflow n z).status.yv = s.status.yv := by
  rcases s.checkOverflow_eq n z with ⟨_, e⟩ | ⟨_, e⟩ <;> rw [e]

@[simp] theorem State.checkOverflow_reg (s : State) (n : Nat) (z : Int) (b : Bank) (i : RegIndex) :
    (s.checkOverflow n z).reg b i = s.reg b i := by
  rcases s.checkOverflow_eq n z with ⟨_, e⟩ | ⟨_, e⟩
  · rw [e]
  · rw [e]; rfl

/-! ## Reset -/

@[simp] theorem State.takeReset_events (s : State) (rest : List Event) : (s.takeReset rest).events = rest := rfl

@[simp] theorem State.takeReset_status (s : State) (rest : List Event) : (s.takeReset rest).status = Status.reset := rfl

/-- `Reset` leaves nothing of the state before it (R36). -/
theorem State.takeReset_eq (s t : State) (rest : List Event) : s.takeReset rest = t.takeReset rest := rfl

@[simp] theorem State.takeReset_reg (s : State) (rest : List Event) (b : Bank) (i : RegIndex) :
    (s.takeReset rest).reg b i = NumReg.unconstructed b.width := by
  cases b <;> simp [State.takeReset, State.reset, State.reg, Bank.width]

@[simp] theorem State.reset_reg (b : Bank) (i : RegIndex) : State.reset.reg b i = NumReg.unconstructed b.width := by
  cases b <;> simp [State.reset, State.reg, Bank.width]

end Sys2Proof.Machine
end

