-- ==== Sys2Proof/Laws/Ops.lean ====
section
/-! SUPPORT. One lemma for each shared operation, saying once everything it can do; the provers cite these instead of
unfolding the operations. -/

namespace Sys2Proof.Machine

/-! ## Integers -/

theorem wrap_toInt_of_inRange {n : Nat} {z : Int} (hn : 0 < n) (h : InRange n z) : (wrap n z).toInt = z := by
  have e : (2 : Int) ^ n = 2 * 2 ^ (n - 1) := by
    obtain ⟨m, rfl⟩ := Nat.exists_eq_succ_of_ne_zero hn.ne'
    simp [pow_succ, mul_comm]
  have c : ((2 ^ n : Nat) : Int) = 2 * 2 ^ (n - 1) := by rw [← e]; norm_cast
  rw [wrap, BitVec.toInt_ofInt, Int.bmod_eq_of_le_mul_two] <;> rw [c] <;> omega

theorem inRange_toInt {n : Nat} (v : BitVec n) : InRange n v.toInt := by
  have h1 := BitVec.le_toInt v
  have h2 := BitVec.toInt_lt (x := v)
  exact ⟨h1, by omega⟩

/-- A right shift does not leave the range (R111 (c)). -/
theorem inRange_asr {n : Nat} {z : Int} (s : Nat) (h : InRange n z) : InRange n (asr z s) := by
  have hp : (0 : Int) < 2 ^ s := by positivity
  have h1 : (1 : Int) ≤ 2 ^ s := hp
  have hn : (0 : Int) < 2 ^ (n - 1) := by positivity
  refine ⟨?_, ?_⟩
  · rw [asr, Int.le_ediv_iff_mul_le hp]
    nlinarith [h.1]
  · rw [asr, ← Int.lt_add_one_iff, Int.ediv_lt_iff_lt_mul hp]
    nlinarith [h.2]

/-- The quotient toward zero of R9 is the library's truncating division. -/
theorem tdiv_eq (x y : Int) : tdiv x y = x.tdiv y := by
  rw [tdiv, Int.natCast_div, Int.natCast_natAbs, Int.natCast_natAbs]
  rcases lt_trichotomy x 0 with hx | rfl | hx <;> rcases lt_trichotomy y 0 with hy | rfl | hy
  all_goals first
    | simp [Int.tdiv_eq_ediv_of_nonneg]
    | skip
  · rw [Int.sign_eq_neg_one_of_neg hx, Int.sign_eq_neg_one_of_neg hy, abs_of_neg hx, abs_of_neg hy,
      ← Int.tdiv_eq_ediv_of_nonneg (by omega), Int.neg_tdiv_neg]
    ring
  · rw [Int.sign_eq_neg_one_of_neg hx, Int.sign_eq_one_of_pos hy, abs_of_neg hx, abs_of_pos hy,
      ← Int.tdiv_eq_ediv_of_nonneg (by omega), Int.neg_tdiv]
    ring
  · rw [Int.sign_eq_one_of_pos hx, Int.sign_eq_neg_one_of_neg hy, abs_of_pos hx, abs_of_neg hy,
      ← Int.tdiv_eq_ediv_of_nonneg (by omega), Int.tdiv_neg]
    ring
  · rw [Int.sign_eq_one_of_pos hx, Int.sign_eq_one_of_pos hy, abs_of_pos hx, abs_of_pos hy,
      ← Int.tdiv_eq_ediv_of_nonneg (by omega)]
    ring

/-- The remainder of R9 is the library's truncating remainder. -/
theorem trem_eq (x y : Int) : trem x y = x.tmod y := by
  rw [trem, tdiv_eq, Int.tmod_def]

/-! ## Operands -/

/-- The precision check: the rule runs on a precision of the bank, and any other raises `PrecisionOutOfRange` (R75). -/
theorem withPrecision_eq (s : State) (b : Bank) (q : Precision) (rule : Result) :
    (q.toNat ≤ b.maxPrecision ∧ withPrecision s b q rule = rule) ∨
    (b.maxPrecision < q.toNat ∧ withPrecision s b q rule = .next (s.raise .precisionOutOfRange)) := by
  by_cases h : q.toNat ≤ b.maxPrecision
  · exact .inl ⟨h, if_pos h⟩
  · exact .inr ⟨by omega, if_neg h⟩

/-- One source: the rule runs on a constructed register, and any other raises `Unconstructed` (R24, R192). -/
theorem withSource_eq (s : State) (b : Bank) (ra : RegIndex) (rule : NumReg b.width → Result) :
    ((s.reg b ra).v = true ∧ withSource s b ra rule = rule (s.reg b ra)) ∨
    ((s.reg b ra).v = false ∧ withSource s b ra rule = .next (s.raise .unconstructed)) := by
  cases h : (s.reg b ra).v
  · exact .inr ⟨rfl, by simp [withSource, h]⟩
  · exact .inl ⟨rfl, by simp [withSource, h]⟩

/-- Two sources: the rule runs on the aligned values of two constructed registers, and any other pair raises
`Unconstructed` (R117, R140). -/
theorem withAligned_eq (s : State) (b : Bank) (ra rb : RegIndex) (rule : Aligned → Result) :
    ((s.reg b ra).v = true ∧ (s.reg b rb).v = true ∧
      withAligned s b ra rb rule =
        rule (align (s.reg b ra).raw.toInt (s.reg b ra).q (s.reg b rb).raw.toInt (s.reg b rb).q)) ∨
    (¬((s.reg b ra).v = true ∧ (s.reg b rb).v = true) ∧
      withAligned s b ra rb rule = .next (s.raise .unconstructed)) := by
  cases ha : (s.reg b ra).v <;> cases hb : (s.reg b rb).v <;> simp [withAligned, withSource, ha, hb]

/-- The three branches of `ALIGN` (R110). -/
theorem align_branches (l : Int) (lq : Precision) (r : Int) (rq : Precision) :
    (lq = rq ∧ align l lq r rq = { a := l, b := r, qc := lq }) ∨
    (rq.toNat < lq.toNat ∧ align l lq r rq = { a := asr l (lq.toNat - rq.toNat), b := r, qc := rq }) ∨
    (lq.toNat < rq.toNat ∧ align l lq r rq = { a := l, b := asr r (rq.toNat - lq.toNat), qc := lq }) := by
  by_cases h : lq = rq
  · exact .inl ⟨h, if_pos h⟩
  · have hne : lq.toNat ≠ rq.toNat := fun e => h (BitVec.eq_of_toNat_eq e)
    by_cases hlt : rq.toNat < lq.toNat
    · exact .inr (.inl ⟨hlt, by rw [align, if_neg h, if_pos hlt]⟩)
    · exact .inr (.inr ⟨by omega, by rw [align, if_neg h, if_neg hlt]⟩)

/-! ## Writes -/

/-- Everything a register write does (R25). -/
theorem State.writeReg_storedIn (s : State) (b : Bank) (rd : RegIndex) (raw : BitVec b.width) (p : Precision) :
    s.StoredIn (s.writeReg b rd raw p) b rd raw p False where
  destination := s.reg_writeReg_same b rd raw p
  otherRegisters c i h := s.reg_writeReg_other b c rd i raw p h
  overflowFlag := by simp
  otherStatus := by simp
  result := by simp
  faultCommand := by simp
  host := by simp

/-- Everything a checked store does (R10, R25). -/
theorem State.storeChecked_storedIn (s : State) (b : Bank) (rd : RegIndex) (z : Int) (p : Precision) :
    s.StoredIn (s.storeChecked b rd z p) b rd (wrap b.width z) p (¬ InRange b.width z) where
  destination := State.reg_writeReg_same ..
  otherRegisters c i h := (State.reg_writeReg_other _ b c rd i _ p h).trans (s.checkOverflow_reg ..)
  overflowFlag := by
    rw [State.storeChecked, State.writeReg_status]
    exact s.checkOverflow_ovf _ z
  otherStatus := by simp [State.storeChecked]
  result := by simp [State.storeChecked]
  faultCommand := by simp [State.storeChecked]
  host := by simp [State.storeChecked]

/-! ## Events -/

/-- What performing a command can do: the decoded command, or the fault of an illegal word (R74). -/
theorem performCommand_cases (s : State) :
    (∃ i, decode s.port.word = .ok i ∧ performCommand s = exec i s) ∨
    (∃ r, decode s.port.word = .error r ∧ performCommand s = .next (s.raise .illegalCommand)) := by
  cases h : decode s.port.word with
  | ok i => exact .inl ⟨i, rfl, by simp [performCommand, h]⟩
  | error r => exact .inr ⟨r, rfl, by simp [performCommand, h]⟩

/-- What a step can do: idle, reset, ignore a command in the fault state, or perform one (R13, R197). -/
theorem step_cases (s : State) :
    (s.events = [] ∧ step s = .next s) ∨
    (∃ rest, s.events = .reset :: rest ∧ step s = .next (s.takeReset rest)) ∨
    (∃ c rest, s.events = .command c :: rest ∧ s.status.fault = true ∧ step s = .next (s.discard rest)) ∨
    (∃ c rest, s.events = .command c :: rest ∧ s.status.fault = false ∧
      step s = performCommand (s.deliver c rest)) := by
  rcases h : s.events with _ | ⟨e, rest⟩
  · exact .inl ⟨rfl, by simp [step, takeEvent, h]⟩
  · rcases e with _ | c
    · exact .inr (.inl ⟨rest, rfl, by simp [step, takeEvent, h]⟩)
    · cases hf : s.status.fault
      · exact .inr (.inr (.inr ⟨c, rest, rfl, rfl, by simp [step, takeEvent, h, hf]⟩))
      · exact .inr (.inr (.inl ⟨c, rest, rfl, rfl, by simp [step, takeEvent, h, hf]⟩))

end Sys2Proof.Machine
end

