-- ==== Sys2Proof/Laws/PerInstr.lean ====
section
/-! SUPPORT. The per-instruction family: the word of a command lies in that command's row of spec/opcode_table.json
(30_encoding.md R81). -/

namespace Sys2Proof.Laws

/-- Masking two words field by field. -/
theorem assemble_and (f g : Fields) :
    assemble f &&& assemble g =
      assemble ⟨f.op &&& g.op, f.w &&& g.w, f.rd &&& g.rd, f.ra &&& g.ra, f.rb &&& g.rb, f.q &&& g.q, f.z &&& g.z⟩ := by
  have h : ∀ {m n : Nat} (a b : BitVec m) (c d : BitVec n), (a ++ c) &&& (b ++ d) = (a &&& b) ++ (c &&& d) :=
    fun _ _ _ _ => BitVec.and_append
  refine (h (m := 22) (n := 10) ..).trans (congrArg (· ++ (f.z &&& g.z)) ?_)
  refine (h (m := 16) (n := 6) ..).trans (congrArg (· ++ (f.q &&& g.q)) ?_)
  refine (h (m := 13) (n := 3) ..).trans (congrArg (· ++ (f.rb &&& g.rb)) ?_)
  refine (h (m := 10) (n := 3) ..).trans (congrArg (· ++ (f.ra &&& g.ra)) ?_)
  refine (h (m := 7) (n := 3) ..).trans (congrArg (· ++ (f.rd &&& g.rd)) ?_)
  exact h ..

end Sys2Proof.Laws

/-- The row of spec/opcode_table.json for this command selects the word its encoding gives. -/
def Sys2Proof.Laws.EncodedWordInRow.Statement (i : Sys2Proof.Instr) : Prop := i.row.selects (Sys2Proof.encode i) = true

open Sys2Proof Sys2Proof.Laws

/-- A row whose mask and pattern are given field by field selects a word whose fields they select. -/
theorem Sys2Proof.Laws.selects_of_fields (i : Instr) (m p : Fields) (hm : i.row.mask = assemble m)
    (hp : i.row.pattern = assemble p)
    (h : (⟨(encodeFields i).op &&& m.op, (encodeFields i).w &&& m.w, (encodeFields i).rd &&& m.rd,
      (encodeFields i).ra &&& m.ra, (encodeFields i).rb &&& m.rb, (encodeFields i).q &&& m.q,
      (encodeFields i).z &&& m.z⟩ : Fields) = p) : EncodedWordInRow.Statement i := by
  rw [EncodedWordInRow.Statement, OpcodeRow.selects, beq_iff_eq, hm, hp, encode, assemble_and, h]

theorem Sys2Proof.Laws.EncodedWordInRow.nop : EncodedWordInRow.Statement (.nop) :=
  selects_of_fields _ ⟨0x3F, 1, 7, 7, 7, 0x3F, 0x3FF⟩ ⟨0x01, 0, 0, 0, 0, 0, 0⟩ rfl rfl (by simp [encodeFields])

theorem Sys2Proof.Laws.EncodedWordInRow.clrovf : EncodedWordInRow.Statement (.clrovf) :=
  selects_of_fields _ ⟨0x3F, 1, 7, 7, 7, 0x3F, 0x3FF⟩ ⟨0x02, 0, 0, 0, 0, 0, 0⟩ rfl rfl (by simp [encodeFields])

theorem Sys2Proof.Laws.EncodedWordInRow.mov (b : Bank) (rd : RegIndex) (ra : RegIndex) : EncodedWordInRow.Statement (.mov b rd ra) :=
  selects_of_fields _ ⟨0x3F, 0, 0, 0, 7, 0x3F, 0x3FF⟩ ⟨0x03, 0, 0, 0, 0, 0, 0⟩ rfl rfl (by simp [encodeFields])

theorem Sys2Proof.Laws.EncodedWordInRow.fromint (b : Bank) (rd : RegIndex) (q : Precision) : EncodedWordInRow.Statement (.fromint b rd q) :=
  selects_of_fields _ ⟨0x3F, 0, 0, 7, 7, 0, 0x3FF⟩ ⟨0x08, 0, 0, 0, 0, 0, 0⟩ rfl rfl (by simp [encodeFields])

theorem Sys2Proof.Laws.EncodedWordInRow.fromfrac (b : Bank) (rd : RegIndex) (q : Precision) : EncodedWordInRow.Statement (.fromfrac b rd q) :=
  selects_of_fields _ ⟨0x3F, 0, 0, 7, 7, 0, 0x3FF⟩ ⟨0x09, 0, 0, 0, 0, 0, 0⟩ rfl rfl (by simp [encodeFields])

theorem Sys2Proof.Laws.EncodedWordInRow.fromf64 (b : Bank) (rd : RegIndex) (q : Precision) : EncodedWordInRow.Statement (.fromf64 b rd q) :=
  selects_of_fields _ ⟨0x3F, 0, 0, 7, 7, 0, 0x3FF⟩ ⟨0x0A, 0, 0, 0, 0, 0, 0⟩ rfl rfl (by simp [encodeFields])

theorem Sys2Proof.Laws.EncodedWordInRow.add (b : Bank) (rd : RegIndex) (ra : RegIndex) (rb : RegIndex) : EncodedWordInRow.Statement (.add b rd ra rb) :=
  selects_of_fields _ ⟨0x3F, 0, 0, 0, 0, 0x3F, 0x3FF⟩ ⟨0x10, 0, 0, 0, 0, 0, 0⟩ rfl rfl (by simp [encodeFields])

theorem Sys2Proof.Laws.EncodedWordInRow.sub (b : Bank) (rd : RegIndex) (ra : RegIndex) (rb : RegIndex) : EncodedWordInRow.Statement (.sub b rd ra rb) :=
  selects_of_fields _ ⟨0x3F, 0, 0, 0, 0, 0x3F, 0x3FF⟩ ⟨0x11, 0, 0, 0, 0, 0, 0⟩ rfl rfl (by simp [encodeFields])

theorem Sys2Proof.Laws.EncodedWordInRow.mul (b : Bank) (rd : RegIndex) (ra : RegIndex) (rb : RegIndex) : EncodedWordInRow.Statement (.mul b rd ra rb) :=
  selects_of_fields _ ⟨0x3F, 0, 0, 0, 0, 0x3F, 0x3FF⟩ ⟨0x12, 0, 0, 0, 0, 0, 0⟩ rfl rfl (by simp [encodeFields])

theorem Sys2Proof.Laws.EncodedWordInRow.div (b : Bank) (rd : RegIndex) (ra : RegIndex) (rb : RegIndex) : EncodedWordInRow.Statement (.div b rd ra rb) :=
  selects_of_fields _ ⟨0x3F, 0, 0, 0, 0, 0x3F, 0x3FF⟩ ⟨0x13, 0, 0, 0, 0, 0, 0⟩ rfl rfl (by simp [encodeFields])

theorem Sys2Proof.Laws.EncodedWordInRow.rem (b : Bank) (rd : RegIndex) (ra : RegIndex) (rb : RegIndex) : EncodedWordInRow.Statement (.rem b rd ra rb) :=
  selects_of_fields _ ⟨0x3F, 0, 0, 0, 0, 0x3F, 0x3FF⟩ ⟨0x14, 0, 0, 0, 0, 0, 0⟩ rfl rfl (by simp [encodeFields])

theorem Sys2Proof.Laws.EncodedWordInRow.eq (b : Bank) (ra : RegIndex) (rb : RegIndex) : EncodedWordInRow.Statement (.eq b ra rb) :=
  selects_of_fields _ ⟨0x3F, 0, 7, 0, 0, 0x3F, 0x3FF⟩ ⟨0x18, 0, 0, 0, 0, 0, 0⟩ rfl rfl (by simp [encodeFields])

theorem Sys2Proof.Laws.EncodedWordInRow.ne (b : Bank) (ra : RegIndex) (rb : RegIndex) : EncodedWordInRow.Statement (.ne b ra rb) :=
  selects_of_fields _ ⟨0x3F, 0, 7, 0, 0, 0x3F, 0x3FF⟩ ⟨0x19, 0, 0, 0, 0, 0, 0⟩ rfl rfl (by simp [encodeFields])

theorem Sys2Proof.Laws.EncodedWordInRow.lt (b : Bank) (ra : RegIndex) (rb : RegIndex) : EncodedWordInRow.Statement (.lt b ra rb) :=
  selects_of_fields _ ⟨0x3F, 0, 7, 0, 0, 0x3F, 0x3FF⟩ ⟨0x1A, 0, 0, 0, 0, 0, 0⟩ rfl rfl (by simp [encodeFields])

theorem Sys2Proof.Laws.EncodedWordInRow.gt (b : Bank) (ra : RegIndex) (rb : RegIndex) : EncodedWordInRow.Statement (.gt b ra rb) :=
  selects_of_fields _ ⟨0x3F, 0, 7, 0, 0, 0x3F, 0x3FF⟩ ⟨0x1B, 0, 0, 0, 0, 0, 0⟩ rfl rfl (by simp [encodeFields])

theorem Sys2Proof.Laws.EncodedWordInRow.le (b : Bank) (ra : RegIndex) (rb : RegIndex) : EncodedWordInRow.Statement (.le b ra rb) :=
  selects_of_fields _ ⟨0x3F, 0, 7, 0, 0, 0x3F, 0x3FF⟩ ⟨0x1C, 0, 0, 0, 0, 0, 0⟩ rfl rfl (by simp [encodeFields])

theorem Sys2Proof.Laws.EncodedWordInRow.ge (b : Bank) (ra : RegIndex) (rb : RegIndex) : EncodedWordInRow.Statement (.ge b ra rb) :=
  selects_of_fields _ ⟨0x3F, 0, 7, 0, 0, 0x3F, 0x3FF⟩ ⟨0x1D, 0, 0, 0, 0, 0, 0⟩ rfl rfl (by simp [encodeFields])

theorem Sys2Proof.Laws.EncodedWordInRow.toint (b : Bank) (ra : RegIndex) : EncodedWordInRow.Statement (.toint b ra) :=
  selects_of_fields _ ⟨0x3F, 0, 7, 0, 7, 0x3F, 0x3FF⟩ ⟨0x20, 0, 0, 0, 0, 0, 0⟩ rfl rfl (by simp [encodeFields])

theorem Sys2Proof.Laws.EncodedWordInRow.frac (b : Bank) (ra : RegIndex) : EncodedWordInRow.Statement (.frac b ra) :=
  selects_of_fields _ ⟨0x3F, 0, 7, 0, 7, 0x3F, 0x3FF⟩ ⟨0x21, 0, 0, 0, 0, 0, 0⟩ rfl rfl (by simp [encodeFields])

theorem Sys2Proof.Laws.EncodedWordInRow.fracdiv (b : Bank) (ra : RegIndex) : EncodedWordInRow.Statement (.fracdiv b ra) :=
  selects_of_fields _ ⟨0x3F, 0, 7, 0, 7, 0x3F, 0x3FF⟩ ⟨0x22, 0, 0, 0, 0, 0, 0⟩ rfl rfl (by simp [encodeFields])

theorem Sys2Proof.Laws.EncodedWordInRow.tof32 (b : Bank) (ra : RegIndex) : EncodedWordInRow.Statement (.tof32 b ra) :=
  selects_of_fields _ ⟨0x3F, 0, 7, 0, 7, 0x3F, 0x3FF⟩ ⟨0x23, 0, 0, 0, 0, 0, 0⟩ rfl rfl (by simp [encodeFields])

theorem Sys2Proof.Laws.EncodedWordInRow.tof64 (b : Bank) (ra : RegIndex) : EncodedWordInRow.Statement (.tof64 b ra) :=
  selects_of_fields _ ⟨0x3F, 0, 7, 0, 7, 0x3F, 0x3FF⟩ ⟨0x24, 0, 0, 0, 0, 0, 0⟩ rfl rfl (by simp [encodeFields])
end

