-- ==== Sys2Proof/Tests/Slice0.lean ====
section
/-! SUPPORT. Tests of the model's own. The expected values are the spec's: 95_test_vectors.md and 96_test_vectors_arithmetic.md, by
the vector's id, or the example of the rule named. The second half shows, for each statement with hypotheses, a concrete
state and operands that meet them. -/

namespace Sys2Proof.Tests

open Sys2Proof Sys2Proof.Machine

/-! ## Decoding: a word of every command, as the spec writes it out -/

theorem test_decode_nop : decode 0x04000000 = .ok .nop := by decide
theorem test_decode_clrovf : decode 0x08000000 = .ok .clrovf := by decide
theorem test_decode_mov : decode 0x0DF80000 = .ok (.mov .W 7 7) := by decide
theorem test_decode_mov_L : decode 0x0E400000 = .ok (.mov .L 1 0) := by decide
theorem test_decode_fromint : decode 0x2200A000 = .ok (.fromint .L 0 40) := by decide
theorem test_decode_fromfrac : decode 0x24403000 = .ok (.fromfrac .W 1 12) := by decide
theorem test_decode_fromf64 : decode 0x29C03000 = .ok (.fromf64 .W 7 12) := by decide
theorem test_decode_add : decode 0x404A0000 = .ok (.add .W 1 1 2) := by decide
theorem test_decode_sub : decode 0x44880000 = .ok (.sub .W 2 1 0) := by decide
theorem test_decode_mul : decode 0x49130000 = .ok (.mul .W 4 2 3) := by decide
theorem test_decode_div : decode 0x4D5A0000 = .ok (.div .W 5 3 2) := by decide
theorem test_decode_rem : decode 0x51B70000 = .ok (.rem .W 6 6 7) := by decide
theorem test_decode_eq : decode 0x601B0000 = .ok (.eq .W 3 3) := by decide
theorem test_decode_ne : decode 0x66010000 = .ok (.ne .L 0 1) := by decide
theorem test_decode_lt : decode 0x682C0000 = .ok (.lt .W 5 4) := by decide
theorem test_decode_gt : decode 0x6C080000 = .ok (.gt .W 1 0) := by decide
theorem test_decode_le : decode 0x72010000 = .ok (.le .L 0 1) := by decide
theorem test_decode_ge : decode 0x74010000 = .ok (.ge .W 0 1) := by decide
theorem test_decode_toint : decode 0x82180000 = .ok (.toint .L 3) := by decide
theorem test_decode_frac : decode 0x84100000 = .ok (.frac .W 2) := by decide
theorem test_decode_fracdiv : decode 0x8A180000 = .ok (.fracdiv .L 3) := by decide
theorem test_decode_tof32 : decode 0x8C300000 = .ok (.tof32 .W 6) := by decide
theorem test_decode_tof64 : decode 0x90280000 = .ok (.tof64 .W 5) := by decide

/-- The word of R68's example. -/
theorem test_encode_add : encode (.add .W 2 0 1) = 0x40810000 := by decide
/-- R78's example of format C. -/
theorem test_encode_fromfrac : encode (.fromfrac .W 1 12) = 0x24403000 := by decide
theorem test_decodeTableWord : decodeTableWord 32 0x9A180000 = none ∧
    decodeTableWord 32 0x92180000 = some (.tof64 .L 3) := by decide

/-- V-DEC-1, 2, 11, 30, 35. -/
theorem test_reserved_opcodes : decode 0x00000000 = .error .reservedOpcode ∧ decode 0xFFFFFFFF = .error .reservedOpcode ∧
    decode 0x10000000 = .error .reservedOpcode ∧ decode 0x78000000 = .error .reservedOpcode ∧
    decode 0x94000000 = .error .reservedOpcode := by decide
/-- V-DEC-5, 16, 26. -/
theorem test_reserved_bits : decode 0x04000001 = .error .reservedBits ∧ decode 0x20003001 = .error .reservedBits ∧
    decode 0x40810200 = .error .reservedBits := by decide
/-- V-DEC-4, 7, 9, 10, 14. -/
theorem test_unused_fields_ZMC : decode 0x06000000 = .error .unusedField ∧ decode 0x08400000 = .error .unusedField ∧
    decode 0x0C010000 = .error .unusedField ∧ decode 0x0C000400 = .error .unusedField ∧
    decode 0x20083000 = .error .unusedField := by decide
/-- V-DEC-15, 25, 29, 33, 34. -/
theorem test_unused_fields_CAPV : decode 0x20013000 = .error .unusedField ∧ decode 0x40810400 = .error .unusedField ∧
    decode 0x60410000 = .error .unusedField ∧ decode 0x80190000 = .error .unusedField ∧
    decode 0x80580000 = .error .unusedField := by decide

/-! ## WellFormed: an ill-formed term for each check (R75) -/

theorem test_fromint_ill_formed : (Instr.fromint .W 0 32).wellFormed = false := by decide
theorem test_fromfrac_ill_formed : (Instr.fromfrac .W 0 40).wellFormed = false := by decide
theorem test_fromf64_ill_formed : (Instr.fromf64 .W 0 63).wellFormed = false := by decide
theorem test_largest_precisions_well_formed :
    (Instr.fromint .W 0 31).wellFormed = true ∧ (Instr.fromint .L 0 63).wellFormed = true := by decide

/-! ## One command -/

/-- A state with one register more. -/
def put (s : State) (b : Bank) (i : RegIndex) (raw : Int) (q : Nat) : State :=
  s.writeReg b i (wrap b.width raw) (BitVec.ofNat 6 q)

/-- The state with one command to come, its port values given as integers. -/
def withCommand (s : State) (w : CommandWord) (in0 in1 in2 : Int) : State :=
  { s with events := [.command ⟨w, BitVec.ofInt 64 in0, BitVec.ofInt 64 in1, BitVec.ofInt 64 in2⟩] }

/-- The next state, where there is one. -/
def nextState (r : Result) : State :=
  match r with
  | .next t => t
  | .fault _ => State.reset
  | .refused _ => State.reset

/-- The state after one command. -/
def run (s : State) (w : CommandWord) (in0 in1 in2 : Int) : State := nextState (step (withCommand s w in0 in1 in2))

/-- Registers 0 and 1 of a bank constructed. -/
def two (b : Bank) (x y : Int) (p q : Nat) : State := put (put State.reset b 0 x p) b 1 y q

/-- V-SYS-1. -/
theorem test_nop : run { State.reset with y := 7 } 0x04000000 0 0 0 =
    { State.reset with y := 7, port := ⟨0x04000000, 0, 0, 0⟩ } := by decide
/-- V-SYS-2. -/
theorem test_clrovf : (run { State.reset with y := 7, status := ⟨false, 0, true, true⟩ } 0x08000000 0 0 0).status.word =
    0x20 := by decide
/-- V-SYS-7. -/
theorem test_mov : (run (put (put State.reset .W 7 (-1) 31) .W 0 5 0) 0x0C380000 0 0 0).reg .W 0 =
    ⟨0xFFFFFFFF, 31, 9, true⟩ := by decide
/-- V-FLT-8. -/
theorem test_mov_other_bank : (run (put State.reset .L 0 13107 12) 0x0C400000 0 0 0).status.word = 0x07 := by decide
/-- V-INT-11. -/
theorem test_fromint : let t := run State.reset 0x20404000 0x0000000123456789 0 0
    t.reg .W 1 = ⟨0x67890000, 16, 5, true⟩ ∧ t.status.word = 0x10 := by decide
/-- V-DEC-17. -/
theorem test_fromint_precision : (run State.reset 0x20008000 5 1 2).status.word = 0x05 := by decide
/-- V-FRC-12. -/
theorem test_fromfrac : let t := run State.reset 0x24805000 0 2935 10000
    t.reg .W 2 = ⟨0xFFFE2475, 20, 6, true⟩ ∧ t.status.word = 0x10 := by decide
/-- V-FRC-17. -/
theorem test_fromfrac_zero : let t := run State.reset 0x24801000 0 1 0
    t.status.word = 0x09 ∧ t.fcmd = 0x24801000 := by decide
/-- V-F64-2. -/
theorem test_fromf64 : (run State.reset 0x28003000 0xC00999999999999A 0 0).reg .W 0 = ⟨0xFFFFCCCD, 12, 4, true⟩ := by
  decide
/-- V-F64-12. -/
theorem test_fromf64_range : (run State.reset 0x28003000 0x4120000000000000 0 0).status.word = 0x0B := by decide
/-- V-ADD-12. -/
theorem test_add : let t := run (two .W 2147483647 1 0 0) 0x40810000 0 0 0
    t.reg .W 2 = ⟨0x80000000, 0, 0, true⟩ ∧ t.status.word = 0x10 := by decide
/-- V-ALI-5. -/
theorem test_add_branch2 : (run (two .W 1023 24 8 4) 0x40010000 0 0 0).reg .W 0 = ⟨87, 4, 1, true⟩ := by decide
/-- V-SUB-11. -/
theorem test_sub : (run (two .W 4096 (-15) 4 8) 0x44810000 0 0 0).reg .W 2 = ⟨0x1001, 4, 1, true⟩ := by decide
/-- V-MUL-2. -/
theorem test_mul : (run (two .W (-13107) 2457 12 12) 0x48810000 0 0 0).reg .W 2 = ⟨0xFFFFE149, 12, 4, true⟩ := by decide
/-- V-MUL-24. -/
theorem test_mul_L : let t := run (two .L (-9223372036854775808) (-9223372036854775808) 63 63) 0x4A810000 0 0 0
    t.reg .L 2 = ⟨0x8000000000000000, 63, 9, true⟩ ∧ t.status.word = 0x10 := by decide
/-- V-DIV-2. -/
theorem test_div : (run (two .W (-13107) 2457 12 12) 0x4C810000 0 0 0).reg .W 2 = ⟨0xFFFFAAA6, 12, 4, true⟩ := by decide
/-- V-DIV-10. -/
theorem test_div_aligned_zero : (run (two .W 4096 15 4 8) 0x4C810000 0 0 0).status.word = 0x09 := by decide
/-- V-REM-14. -/
theorem test_rem : (run (two .W 82739 (-6144) 12 12) 0x50810000 0 0 0).reg .W 2 = ⟨0xB33, 12, 4, true⟩ := by decide
/-- V-REM-16. -/
theorem test_rem_min : let t := run (two .W (-2147483648) (-1) 0 0) 0x50810000 0 0 0
    t.reg .W 2 = ⟨0, 0, 0, true⟩ ∧ t.status.word = 0 := by decide
/-- V-CMP-4. -/
theorem test_eq : (run (two .W 1023 63 8 4) 0x60010000 0 0 0).y = 1 := by decide
/-- V-CMP-7. -/
theorem test_ne : (run (two .W (-1) 0 8 4) 0x64010000 0 0 0).y = 1 := by decide
/-- V-CMP-10. -/
theorem test_lt : (run (two .W (-2147483648) 2147483647 0 0) 0x68010000 0 0 0).y = 1 := by decide
/-- V-CMP-9. -/
theorem test_gt : (run (two .W 0 (-1) 4 8) 0x6C010000 0 0 0).y = 1 := by decide
/-- V-CMP-1. -/
theorem test_le : (run (two .W 13107 13107 12 12) 0x70010000 0 0 0).y = 1 := by decide
/-- V-CMP-3. -/
theorem test_ge : (run (two .W 2457 13107 12 12) 0x74010000 0 0 0).y = 0 := by decide
/-- V-TOI-2. -/
theorem test_toint : (run (put State.reset .W 3 (-38066) 12) 0x80180000 0 0 0).y = 0xFFFFFFFFFFFFFFF6 := by decide
/-- V-FRAC-2. -/
theorem test_frac : (run (put State.reset .W 3 (-38066) 12) 0x84180000 0 0 0).y = 7065 := by decide
/-- V-FRAC-10. -/
theorem test_frac_truncates : (run (put State.reset .W 3 0x3FFFFFFF 30) 0x84180000 0 0 0).y = 999999999 := by decide
/-- V-FDV-6. -/
theorem test_fracdiv : (run (put State.reset .W 3 38066 12) 0x88180000 0 0 0).y = 10000 := by decide
/-- V-TF64-12. -/
theorem test_tof64 : (run (put State.reset .L 3 9007199254740995 0) 0x92180000 0 0 0).y = 0x4340000000000002 := by decide
/-- V-TF64-18. -/
theorem test_tof64_carries : (run (put State.reset .L 3 9223372036854775807 63) 0x92180000 0 0 0).y =
    0x3FF0000000000000 := by decide
/-- V-TF32-19. -/
theorem test_tof32 : (run (put State.reset .L 3 18014399583223809 0) 0x8E180000 0 0 0).y = 0x5A800001 := by decide
/-- V-TF32-2. -/
theorem test_tof32_negative : (run (put State.reset .W 3 (-13107) 12) 0x8C180000 0 0 0).y = 0xC04CCC00 := by decide
/-- V-FLT-9: the fault state ignores a second illegal word. -/
theorem test_fault_state : (run (run State.reset 0x00000000 0 0 0) 0xFFFFFFFF 0 0 0).fcmd = 0x00000000 := by decide
/-- V-FLT-1, V-FLT-3, V-FLT-4: the order of checks. -/
theorem test_fault_order : (run State.reset 0x2400A000 1 1 0).status.word = 0x05 ∧
    (run State.reset 0x4C810001 0 0 0).status.word = 0x03 ∧
    (run State.reset 0x28008000 0x7FF8000000000000 0 0).status.word = 0x05 := by decide
/-- The host's pair: the next step runs exactly the word. -/
theorem test_withFetchWord : (nextState (step (State.reset.withFetchWord 32 0x20003000))).reg .W 0 =
    ⟨0, 12, 4, true⟩ := by decide
/-- R51: entries at the ends of the table. -/
theorem test_digit_table : QD 1 = 0 ∧ QD 2 = 1 ∧ QD 28 = 8 ∧ QD 29 = 9 ∧ QD 32 = 9 ∧ QD 63 = 9 := by decide

/-! ## Witnesses: the hypotheses of each statement, met -/

/-- A state with registers of several precisions in both banks, `w7` and `l7` unconstructed, the integer 3 and the
fraction 1/2 on the ports. -/
def sample : State :=
  { put (put (put (put (put (put (two .W 13107 2457 12 12) .W 2 1023 8) .W 3 24 4) .W 4 15 8) .W 5 (-15) 8) .W 6 0 12)
      .L 0 3518437208883 40 with
    port := ⟨0x20003000, 3, 1, 2⟩ }

/-- `sample` in the fault state. -/
def faulted : State := sample.afterFault 4

/-- The next state of a command on a state. -/
def after (i : Instr) (s : State) : State := nextState (exec i s)

/-- A command event. -/
def cmd (w : CommandWord) : Command := ⟨w, 3, 1, 2⟩

theorem sample_running : sample.Running := by decide
theorem sample_inv : sample.Inv := by decide

/-- `EncodeOfDecodeIsTheWord`, `DecoderAgreesWithTheOpcodeTable`, `EncodedAs` in both of its cases. -/
theorem witness_decode : decode 0x40810000 = .ok (.add .W 2 0 1) ∧ (Instr.add .W 0 0 0).row.selects 0x40810000 = true ∧
    (fieldsOf 0x40810000).op = 0x10 ∧ (fieldsOf 0x40810000).z = 0 ∧ (fieldsOf 0x40810200).op = 0x10 := by decide

/-- `IllegalWordFaults`, by a reserved opcode and by an unused field. -/
theorem witness_illegal : ({ sample with events := [.command (cmd 0xFFFFFFFF)] } : State).Running ∧
    IllegalWord 0x06000000 ∧ IllegalWord 0x04000001 :=
  ⟨by decide, .inr ⟨.Z, by decide, by decide⟩, .inr ⟨.Z, by decide, by decide⟩⟩

/-- `StepRunsTheDecodedCommand`, and the last case of `FaultsAreRaisedInTheOrderOfChecks`. -/
theorem witness_step : ({ sample with events := [.command (cmd 0x40810000)] } : State).Running ∧
    decode (cmd 0x40810000).word = .ok (.add .W 2 0 1) ∧ expectedFault (.add .W 2 0 1) sample = none := by decide

/-- The codes of `expectedFault`, each reached: a precision at the first value out of range, an unconstructed source, a
divisor that aligns to zero, a zero denominator, a value out of range and an infinity. -/
theorem witness_faults : expectedFault (.fromint .W 0 32) sample = some 2 ∧
    expectedFault (.add .W 0 0 7) sample = some 3 ∧ expectedFault (.div .W 0 3 4) sample = some 4 ∧
    expectedFault (.fromfrac .W 0 31) { sample with port := ⟨0, 1, 1, 0⟩ } = some 4 ∧
    expectedFault (.fromf64 .W 0 31) { sample with port := ⟨0, 0x3FF0000000000000, 0, 0⟩ } = some 5 ∧
    expectedFault (.fromf64 .L 0 0) { sample with port := ⟨0, 0x7FF0000000000000, 0, 0⟩ } = some 5 := by decide +kernel

/-- `FaultStateIgnoresEveryCommand`, `NopChangesNothing`, `ClrovfClearsOnlyTheOverflowFlag` (their last clauses). -/
theorem witness_fault_state : ({ faulted with events := [.command (cmd 0x08000000)] } : State).status.fault = true ∧
    (cmd 0x08000000).word = 0x08000000 ∧ (cmd 0x04000000).word = 0x04000000 := by decide

/-- `ResetClearsRegistersAndStatus`, `OnlyResetLeavesTheFaultState`: out of the fault state by `Reset`. -/
theorem witness_reset : ({ faulted with events := [.reset] } : State).status.fault = true ∧
    step { faulted with events := [.reset] } = .next State.reset := ⟨by decide, rfl⟩

/-- `CommandsNeverClearFaultYvOrValid`: a command with `YV`, a register and, in the fault state, `FAULT` to keep. -/
theorem witness_command_step : step { faulted with events := [.command (cmd 0x04000000)] } = .next faulted ∧
    (sample.afterY 1).status.yv = true ∧
    step { sample with events := [.command (cmd 0x40810000)] } =
      .next (nextState (step { sample with events := [.command (cmd 0x40810000)] })) := ⟨rfl, by decide, rfl⟩

/-- `IdleKeepsAllState`. -/
theorem witness_idle : sample.events = [] := by decide

/-- `EveryStepKeepsTheInvariant`: the invariant with a command to come, and in the fault state. -/
theorem witness_inv : ({ sample with events := [.command (cmd 0x40810000)] } : State).Inv ∧ faulted.Inv := by decide

/-- `UnspecifiedContentsNeverMatter`: two different states that agree on what is specified. -/
theorem witness_unspecified : State.reset.SameSpecified ({ State.reset with y := 5, fcmd := 6 } : State) ∧
    State.reset ≠ ({ State.reset with y := 5, fcmd := 6 } : State) :=
  ⟨⟨rfl, fun _ _ => rfl, fun _ _ _ => rfl, fun h => absurd h (by decide), fun h => absurd h (by decide), rfl, rfl⟩, by decide⟩

/-- `OnlyTheReadPortBitsMatter`: ports that differ above bit 31 for a bank W construction, and anywhere for `ADD`. -/
theorem witness_ports : (Instr.fromint .W 0 12).SamePorts sample.port ⟨0x20003000, 0x100000003, 9, 9⟩ ∧
    (Instr.fromfrac .W 0 12).SamePorts sample.port ⟨0x20003000, 0x100000003, 0x200000001, 0x300000002⟩ ∧
    (Instr.fromf64 .W 0 12).SamePorts sample.port ⟨0x20003000, 3, 9, 9⟩ ∧
    (Instr.add .W 0 0 0).SamePorts sample.port ⟨0x20003000, 9, 9, 9⟩ ∧
    exec (.fromint .W 0 12) sample = .next (after (.fromint .W 0 12) sample) :=
  ⟨rfl, ⟨rfl, rfl, rfl⟩, rfl, trivial, rfl⟩

/-- `BanksAreIndependent`, `CommandChangesAtMostItsDestination`, `OverflowFlagIsSticky`: a command of each bank that
answers a next state; the flag's clauses: set, `CLROVF`, an unchecked command, a fault. -/
theorem witness_frames : exec (.add .W 2 0 1) sample = .next (after (.add .W 2 0 1) sample) ∧
    exec (.mov .L 2 0) sample = .next (after (.mov .L 2 0) sample) ∧
    (Instr.add .W 2 0 1).bank ≠ some .L ∧ (Instr.mov .L 2 0).bank ≠ some .W ∧
    (Instr.add .W 2 0 1).writesY = false ∧ (Instr.mov .L 2 0).checksOverflow = false ∧
    exec .clrovf { sample with status := ⟨false, 0, true, false⟩ } = .next sample ∧
    (after (.div .W 0 3 4) sample).status.fault = true := ⟨rfl, rfl, by decide, by decide, by decide, by decide, rfl, by decide⟩

/-- `FaultsArePrecise`: `DIV.W w0, w3, w4`, whose divisor aligns to zero. -/
theorem witness_precise : step { sample with events := [.command (cmd 0x4C1C0000)] } =
    .next (({ sample with port := cmd 0x4C1C0000 } : State).afterFault 4) := rfl

/-- Both cases of `MovCopiesTheNumber`, `AddStoresTheAlignedSum`, `SubStoresTheAlignedDifference`,
`MulStoresTheNormalizedProduct`, `ComparisonsWriteTheirTruthValue`, `ComparisonLaws`, `TointWritesTheFloor`,
`FracdivWritesThePowerOfTen`: constructed sources, and an unconstructed one. -/
theorem witness_sources : (sample.reg .W 0).v = true ∧ (sample.reg .W 1).v = true ∧ (sample.reg .L 0).v = true ∧
    (sample.reg .W 7).v = false ∧ (sample.reg .L 7).v = false := by decide

/-- `AlignmentTakesTheSmallerPrecision`, and the cases of `DivStoresTheScaledQuotient`, `RemStoresTheAlignedRemainder`: the
common precision and the aligned values, by each branch of R110, a zero and a nonzero divisor. -/
theorem witness_alignment : commonPrecision (sample.reg .W 0) (sample.reg .W 1) = 12 ∧
    commonPrecision (sample.reg .W 2) (sample.reg .W 3) = 4 ∧ alignedTo (sample.reg .W 2) 4 = 63 ∧
    alignedTo (sample.reg .W 3) 4 = 24 ∧ alignedTo (sample.reg .W 4) 4 = 0 ∧ alignedTo (sample.reg .W 5) 4 = -1 ∧
    (sample.reg .W 2).Sound ∧ (sample.reg .W 3).Sound := by decide

/-- `FromintStoresTheScaledInteger` and `FromfracStoresTheIntegerPlusTheFraction`: the last precision of bank W, the first
above it, a zero and a nonzero denominator. -/
theorem witness_construction : (31#6).toNat ≤ Bank.W.width - 1 ∧ Bank.W.width - 1 < (32#6).toNat ∧
    (63#6).toNat ≤ Bank.L.width - 1 ∧ lowInteger .W sample.port.in2 = 2 ∧ lowInteger .W 0x100000000 = 0 := by decide

/-- `Fromf64StoresTheTruncatedProduct`: no number, a number in range at its last value, and one out of range. -/
theorem witness_float : float64Number 0x7FF8000000000000 = none ∧ float64Number 0xC1E0000000000000 = some (-2147483648) ∧
    InRange 32 (truncateRational (-2147483648)) ∧ ¬ InRange 32 (truncateRational 2147483648) := by decide +kernel

/-- `IntegerRoundTrip`: the smallest integer in range at `q = 12`. -/
theorem witness_round_trip : InRange 32 (lowInteger .W (BitVec.ofInt 64 (-524288)) * 2 ^ (12#6).toNat) := by decide

/-- `SameOperandGivesZeroAndOne`: a nonzero number, zero, and the last precision. -/
theorem witness_same_operand : (sample.reg .W 0).Sound ∧ (sample.reg .W 0).raw ≠ 0 ∧ (sample.reg .W 6).Sound ∧
    (sample.reg .W 6).raw = 0 ∧ ((put sample .W 7 5 31).reg .W 7).Sound ∧
    ((put sample .W 7 5 31).reg .W 7).q.toNat = Bank.W.width - 1 := by decide

/-- `DivisorIsTestedAfterAlignment`: a nonzero right operand at the last value that aligns to zero, zero, and a negative
one. -/
theorem witness_divisor : (sample.reg .W 3).q.toNat < (sample.reg .W 4).q.toNat ∧ 0 ≤ (sample.reg .W 4).raw.toInt ∧
    (sample.reg .W 4).raw.toInt < 2 ^ ((sample.reg .W 4).q.toNat - (sample.reg .W 3).q.toNat) ∧
    (sample.reg .W 6).raw = 0 ∧ (sample.reg .W 5).raw.toInt < 0 := by decide

/-- `CommandIsMovThenCompound`, `AddThenSubtractGivesTheNumberBack`. -/
theorem witness_compound : exec (.div .W 2 0 1) sample = .next (after (.div .W 2 0 1) sample) ∧
    (after (.div .W 2 0 1) sample).status.fault = false ∧ (2 : RegIndex) ≠ 1 ∧
    (sample.reg .W 3).q.toNat ≤ (sample.reg .W 2).q.toNat := ⟨rfl, by decide, by decide, by decide⟩

/-- `MulIsWithinOneUnitBelowTheProduct`. -/
theorem witness_mul : (sample.reg .W 0).q = (sample.reg .W 1).q ∧
    exec (.mul .W 2 0 1) sample = .next (after (.mul .W 2 0 1) sample) ∧
    (after (.mul .W 2 0 1) sample).status.ovf = false := ⟨by decide, rfl, by decide⟩

/-- `WideIntermediatesFit`: the ends of the range. -/
theorem witness_wide : InRange Bank.W.width (-2147483648) ∧ InRange Bank.W.width 2147483647 ∧
    31 ≤ Bank.W.width - 1 := by decide

/-- `FracWritesTheDecimalFraction`, `TointAndFracAreTheRoundedNumber`, `FracReachesItsDivisorInSixCases`: the largest
precision of eight digits with all fractional bits set, the first of nine digits, and no fraction. -/
theorem witness_frac : ((put sample .W 7 268435455 28).reg .W 7).Sound ∧ (QD 28).toNat < 9 ∧ (QD 29).toNat = 9 ∧
    ((put sample .W 7 (-1) 29).reg .W 7).Sound ∧
    ((0xFFFFFFF : Nat) : Int) = ((put sample .W 7 268435455 28).reg .W 7).raw.toInt -
      ((put sample .W 7 268435455 28).reg .W 7).raw.toInt / 2 ^ 28 * 2 ^ 28 := by decide

/-- `Tof64WritesTheNearestBinary64`, `Tof32WritesTheNearestBinary32`, `Binary64RoundTripInBankW`: a number, zero, and a state
whose port holds the number's pattern. -/
theorem witness_tofloat : (sample.reg .W 0).Sound ∧ (sample.reg .W 0).raw ≠ 0 ∧ (sample.reg .W 6).raw = 0 ∧
    (after (.tof64 .W 0) sample).y = 0x4009998000000000 ∧
    ({ sample with port := ⟨0, 0x4009998000000000, 0, 0⟩ } : State).Running := by decide

end Sys2Proof.Tests
end

section
/-! The digit table against its formula (20_memory.md R51): the 32 listed entries are checked one by one, and from
precision 32 on the cap of nine digits is reached, because `4 ^ q` only grows. -/

namespace Sys2Proof.Machine

/-- `d` is the least digit count with `n < 10 ^ (2 d + 1)`, capped at nine: `d` satisfies the bound unless it is the cap,
and `d - 1` does not. -/
def IsCappedDigitCount (n d : Nat) : Prop :=
  d ≤ 9 ∧ (d < 9 → n < 10 ^ (2 * d + 1)) ∧ (0 < d → 10 ^ (2 * d - 1) ≤ n)

/-- Where the cap is reached, only the lower bound is left to hold. -/
theorem isCappedDigitCount_nine_iff (n : Nat) : IsCappedDigitCount n 9 ↔ 10 ^ 17 ≤ n := by
  simp [IsCappedDigitCount]

/-- From the end of the listed entries on the table gives the cap. -/
theorem QD_eq_nine_of_le (q : Precision) (hq : 32 ≤ q.toNat) : QD q = 9 := by
  have hend : digitTable.length ≤ q.toNat := hq
  rw [QD, List.getD_eq_default _ _ hend]
  rfl

/-- The entries the spec lists. -/
theorem isCappedDigitCount_QD_of_lt (q : Precision) (hq : q.toNat < 32) :
    IsCappedDigitCount (4 ^ q.toNat) (QD q).toNat := by
  revert q
  unfold IsCappedDigitCount
  decide

/-- The entries above the listed ones: `10 ^ 17 ≤ 4 ^ 32` already forces the cap. -/
theorem isCappedDigitCount_QD_of_le (q : Precision) (hq : 32 ≤ q.toNat) :
    IsCappedDigitCount (4 ^ q.toNat) (QD q).toNat := by
  have hcap : 10 ^ 17 ≤ 4 ^ q.toNat :=
    calc 10 ^ 17 ≤ 4 ^ 32 := by decide
      _ ≤ 4 ^ q.toNat := Nat.pow_le_pow_right (by decide) hq
  rw [QD_eq_nine_of_le q hq]
  exact (isCappedDigitCount_nine_iff _).mpr hcap

end Sys2Proof.Machine

open Sys2Proof Sys2Proof.Machine

/-- Settles O53: the listed precisions by their entries, the others by the cap. -/
theorem digitTableFollowsItsFormula : Obligations.DigitTableFollowsItsFormula := by
  intro q
  rcases Nat.lt_or_ge q.toNat 32 with hlisted | hbeyond
  · exact isCappedDigitCount_QD_of_lt q hlisted
  · exact isCappedDigitCount_QD_of_le q hbeyond

end

section
/-! Illegal words (30_encoding.md R70, R76): the decoder looks an opcode up in `opcodeFormats` and then accepts or rejects
the fields by the format found there, so the words it rejects are exactly those of `IllegalWord`. -/

namespace Sys2Proof

/-- A format rejects the fields with a nonzero reserved bit or unused field, and no others (R70). -/
theorem Fields.accept_rejects_iff (f : Fields) (fmt : Format) (i : Instr) :
    (∃ r, f.accept fmt i = .error r) ↔ f.z ≠ 0#10 ∨ fmt.unusedZero f = false := by
  rcases f.accept_eq fmt i with ⟨hz, hunused, hok⟩ | ⟨hbad, hrej⟩
  · simp [hz, hunused, hok]
  · rw [not_and_or, Bool.not_eq_true] at hbad
    exact iff_of_true hrej hbad

end Sys2Proof

namespace Sys2Proof.Machine

/-- No opcode has two formats (R69). -/
theorem opcodeFormats_unique {op : BitVec 6} {fmt fmt' : Format} (h : (op, fmt) ∈ opcodeFormats)
    (h' : (op, fmt') ∈ opcodeFormats) : fmt = fmt' := by
  have hkeys : ∀ x ∈ opcodeFormats, ∀ y ∈ opcodeFormats, x.1 = y.1 → x.2 = y.2 := by decide
  exact hkeys _ h _ h' rfl

/-- The two cases of the opcode map: an opcode in use leaves the word to its format, any other is reserved (R69). -/
theorem decodeFields_cases (f : Fields) :
    (∃ fmt i, (f.op, fmt) ∈ opcodeFormats ∧ decodeFields f = f.accept fmt i) ∨
    ((∀ fmt, (f.op, fmt) ∉ opcodeFormats) ∧ decodeFields f = .error .reservedOpcode) := by
  unfold decodeFields
  split
  case h_23 => exact .inr ⟨by simp_all [opcodeFormats], rfl⟩
  all_goals
    next hop =>
      refine .inl ⟨_, _, ?_, rfl⟩
      rw [hop]
      decide

/-- The decoder rejects exactly the illegal words (R74 step 3, R76). -/
theorem illegalWord_iff_decode_rejects (c : CommandWord) : IllegalWord c ↔ ∃ r, decode c = .error r := by
  rcases decodeFields_cases (fieldsOf c) with ⟨fmt, i, hmem, hdec⟩ | ⟨hreserved, hdec⟩
  · rw [decode, hdec, Fields.accept_rejects_iff]
    constructor
    · rintro (hreserved | ⟨fmt', hmem', hbad⟩)
      · exact absurd hmem (hreserved fmt)
      · rwa [opcodeFormats_unique hmem hmem']
    · exact fun hbad => .inr ⟨fmt, hmem, hbad⟩
  · exact ⟨fun _ => ⟨_, hdec⟩, fun _ => .inl hreserved⟩

/-- Out of the fault state a command event is delivered and performed (R13, R74). -/
theorem step_eq_performCommand {s : State} {c : Command} {rest : List Event} (hrun : s.Running)
    (hev : s.events = .command c :: rest) : step s = performCommand (s.deliver c rest) := by
  rcases step_cases s with ⟨hidle, _⟩ | ⟨_, hreset, _⟩ | ⟨_, _, _, hfault, _⟩ | ⟨c', rest', hcmd, _, hstep⟩
  · simp [hev] at hidle
  · simp [hev] at hreset
  · simp [hrun] at hfault
  · obtain ⟨rfl, rfl⟩ : c = c' ∧ rest = rest' := by simpa [hev] using hcmd
    exact hstep

/-- Fault entry writes `FAULT`, the code and `FCMD`, and nothing else (R196). -/
theorem State.raise_eq_afterFault (s : State) (c : Cause) : s.raise c = s.afterFault c.code := rfl

/-- A rejected word is the fault of code 1, with that fault's entry and nothing else (R193, R196). -/
theorem performCommand_of_rejects {s : State} {r : Reject} (h : decode s.port.word = .error r) :
    performCommand s = .next (s.afterFault 1) := by
  rcases performCommand_cases s with ⟨i, hok, _⟩ | ⟨_, _, hperf⟩
  · simp [h] at hok
  · rw [hperf, State.raise_eq_afterFault, Cause.code]

end Sys2Proof.Machine

open Sys2Proof Sys2Proof.Machine

/-- Settles O5: the decoder rejects an illegal word before it reads a register or a port. -/
theorem illegalWordFaults : Obligations.IllegalWordFaults := by
  have hzeros : decode 0x00000000 = .error .reservedOpcode := by decide
  have hones : decode 0xFFFFFFFF = .error .reservedOpcode := by decide
  refine ⟨(illegalWord_iff_decode_rejects _).mpr ⟨_, hzeros⟩, (illegalWord_iff_decode_rejects _).mpr ⟨_, hones⟩, ?_⟩
  intro s c rest hrun hev hill
  obtain ⟨r, hdec⟩ := (illegalWord_iff_decode_rejects c.word).mp hill
  rw [step_eq_performCommand hrun hev]
  exact performCommand_of_rejects (s := s.deliver c rest) hdec

end

section
/-! The commands of an opcode (30_encoding.md R69, R70): what the decoder's row for an opcode makes of a word is all
`EncodedAs` asks about it. -/

namespace Sys2Proof.Machine

/-- When the decoder leaves an opcode to one format and one command, the words of that opcode are that command or fault
(R70, R193). -/
theorem encodedAs_of_decodeFields {op : BitVec 6} {fmt : Format} {mk : Fields → Instr}
    (hrow : ∀ f : Fields, f.op = op → decodeFields f = f.accept fmt (mk f)) : EncodedAs op fmt mk := by
  intro c hop
  have hdec : decode c.word = (fieldsOf c.word).accept fmt (mk (fieldsOf c.word)) := hrow _ hop
  rcases (fieldsOf c.word).accept_eq fmt (mk (fieldsOf c.word)) with ⟨hz, hunused, hok⟩ | ⟨hbad, r, hrej⟩
  · rw [if_pos ⟨hz, hunused⟩, hdec, hok]
  · rw [if_neg hbad]
    intro s rest hrun hev
    rw [step_eq_performCommand hrun hev]
    exact performCommand_of_rejects (s := s.deliver c rest) (hdec.trans hrej)

/-- The words of `FROMINT` (R92). -/
theorem encodedAs_fromint : EncodedAs 0x08 .C (fun f => .fromint f.bank f.rd f.q) :=
  encodedAs_of_decodeFields fun f hop => by cases f; cases hop; rfl

/-- The words of `FROMFRAC` (R93). -/
theorem encodedAs_fromfrac : EncodedAs 0x09 .C (fun f => .fromfrac f.bank f.rd f.q) :=
  encodedAs_of_decodeFields fun f hop => by cases f; cases hop; rfl

/-- The words of `FROMF64` (R94). -/
theorem encodedAs_fromf64 : EncodedAs 0x0A .C (fun f => .fromf64 f.bank f.rd f.q) :=
  encodedAs_of_decodeFields fun f hop => by cases f; cases hop; rfl

end Sys2Proof.Machine

end

section
/-! Storing a result with overflow checks (00_scope.md R10, 10_state.md R25): a check made before a store adds one more
reason for `OVF`, and a result in range is stored with no check at all. -/

namespace Sys2Proof.Machine

/-- An overflow check ahead of a store changes the frame of the store by its own condition on `OVF` alone (R10). -/
theorem State.StoredIn.of_checkOverflow {s t : State} {b : Bank} {rd : RegIndex} {raw : BitVec b.width} {p : Precision}
    {overflowed : Prop} {n : Nat} {z : Int} (h : (s.checkOverflow n z).StoredIn t b rd raw p overflowed) :
    s.StoredIn t b rd raw p (¬ InRange n z ∨ overflowed) where
  destination := h.destination
  otherRegisters c i hother := (h.otherRegisters c i hother).trans (s.checkOverflow_reg n z c i)
  overflowFlag := by rw [h.overflowFlag, s.checkOverflow_ovf, or_assoc]
  otherStatus := by simpa using h.otherStatus
  result := by simpa using h.result
  faultCommand := by simpa using h.faultCommand
  host := by simpa using h.host

/-- In range a checked store is a plain register write (R10). -/
theorem State.storeChecked_of_inRange {s : State} {b : Bank} {rd : RegIndex} {z : Int} {p : Precision}
    (h : InRange b.width z) : s.storeChecked b rd z p = s.writeReg b rd (wrap b.width z) p := by
  rw [State.storeChecked, State.checkOverflow, if_pos h]

end Sys2Proof.Machine

end

section
/-! What the construction commands answer (40_construction.md R90 to R94), one equation for each way they can go. -/

namespace Sys2Proof.Machine

variable {b : Bank} {rd : RegIndex} {q : Precision} {s : State}

/-- A precision of the bank lets the rule run (R75). -/
theorem withPrecision_of_le {rule : Result} (hq : q.toNat ≤ b.width - 1) : withPrecision s b q rule = rule :=
  if_pos hq

/-- A precision above `QMAX` raises `PrecisionOutOfRange`, code 2 (R75, R198). -/
theorem withPrecision_of_gt {rule : Result} (hq : b.width - 1 < q.toNat) :
    withPrecision s b q rule = .next (s.afterFault 2) :=
  if_neg (Nat.not_le.mpr hq)

theorem exec_fromint_of_gt (hq : b.width - 1 < q.toNat) : exec (.fromint b rd q) s = .next (s.afterFault 2) :=
  withPrecision_of_gt hq

/-- A precision of the bank leads to a checked store of the scaled integer (R92). -/
theorem exec_fromint_of_le (hq : q.toNat ≤ b.width - 1) :
    exec (.fromint b rd q) s = .next (s.storeChecked b rd (lowInteger b s.port.in0 * 2 ^ q.toNat) q) :=
  withPrecision_of_le hq

/-- A scaled integer in range is stored without a check (R10, R92). -/
theorem exec_fromint_of_inRange (hq : q.toNat ≤ b.width - 1)
    (hfit : InRange b.width (lowInteger b s.port.in0 * 2 ^ q.toNat)) :
    exec (.fromint b rd q) s = .next (s.writeReg b rd (wrap b.width (lowInteger b s.port.in0 * 2 ^ q.toNat)) q) := by
  rw [exec_fromint_of_le hq, State.storeChecked_of_inRange hfit]

theorem exec_fromfrac_of_gt (hq : b.width - 1 < q.toNat) : exec (.fromfrac b rd q) s = .next (s.afterFault 2) :=
  withPrecision_of_gt hq

/-- A zero denominator raises `DivideByZero`, code 4, after the precision check (R93). -/
theorem exec_fromfrac_of_zero (hq : q.toNat ≤ b.width - 1) (hfd : lowInteger b s.port.in2 = 0) :
    exec (.fromfrac b rd q) s = .next (s.afterFault 4) :=
  (withPrecision_of_le hq).trans (if_pos hfd)

/-- The four steps of `FROMFRAC` in the order they are checked (R93). -/
theorem exec_fromfrac_of_ne_zero (hq : q.toNat ≤ b.width - 1) (hfd : lowInteger b s.port.in2 ≠ 0)
    {z1 z2 z3 z4 : Int}
    (h1 : z1 = lowInteger b s.port.in0 * 2 ^ q.toNat)
    (h2 : z2 = lowInteger b s.port.in1 * 2 ^ q.toNat)
    (h3 : z3 = (wrap b.width z2).toInt.tdiv (lowInteger b s.port.in2))
    (h4 : z4 = (wrap b.width z1).toInt + (wrap b.width z3).toInt) :
    exec (.fromfrac b rd q) s =
      .next ((((s.checkOverflow b.width z1).checkOverflow b.width z2).checkOverflow b.width z3).storeChecked
        b rd z4 q) := by
  have hrun : exec (.fromfrac b rd q) s = _ := (withPrecision_of_le hq).trans (if_neg hfd)
  rw [← tdiv_eq] at h3
  subst h1 h2 h3 h4
  exact hrun

theorem exec_fromf64_of_gt (hq : b.width - 1 < q.toNat) : exec (.fromf64 b rd q) s = .next (s.afterFault 2) :=
  withPrecision_of_gt hq

end Sys2Proof.Machine

open Sys2Proof Sys2Proof.Machine

/-- Settles O26: a precision of the bank leads to one checked store, any other to the fault. -/
theorem fromintStoresTheScaledInteger : Obligations.FromintStoresTheScaledInteger := by
  refine ⟨encodedAs_fromint, fun b rd q s _ => ?_⟩
  split
  next hq => exact ⟨_, exec_fromint_of_le hq, s.storeChecked_storedIn b rd _ q⟩
  next hq => exact exec_fromint_of_gt (Nat.not_le.mp hq)

/-- Settles O27: the precision is checked before the denominator, and each of the first three steps is an overflow check
ahead of the store of the fourth. -/
theorem fromfracStoresTheIntegerPlusTheFraction : Obligations.FromfracStoresTheIntegerPlusTheFraction := by
  refine ⟨encodedAs_fromfrac, fun b rd q s _ => ?_⟩
  split
  next hq => exact exec_fromfrac_of_gt hq
  next hq =>
    have hq : q.toNat ≤ b.width - 1 := Nat.not_lt.mp hq
    split
    next hfd => exact exec_fromfrac_of_zero hq hfd
    next hfd =>
      intro z1 z2 z3 z4 h1 h2 h3 h4
      exact ⟨_, exec_fromfrac_of_ne_zero hq hfd h1 h2 h3 h4,
        (State.storeChecked_storedIn _ b rd z4 q).of_checkOverflow.of_checkOverflow.of_checkOverflow⟩

end

section
/-! `FROMF64` (40_construction.md R94, R95): the integers the model computes with are the truncated exact product. The
pattern of a float stands for a rational number, scaling its magnitude down is a floor, and truncation toward zero
commutes with the sign. -/

namespace Sys2Proof.Machine

/-- The real number a decoded binary64 value stands for (R95). -/
def FloatValue.number : FloatValue → Option ℚ
  | .nan => none
  | .infinite _ => none
  | .finite neg mag exp => some ((if neg then -1 else 1) * mag * 2 ^ exp)

/-- The fields of a binary64 pattern are read as the number the pattern stands for (R95). -/
theorem number_readFloat64 (bits : BitVec 64) : (readFloat64 bits).number = float64Number bits := by
  by_cases hspecial : (bits.extractLsb' 52 11).toNat = 2047
  · by_cases hf : (bits.extractLsb' 0 52).toNat = 0 <;>
      simp only [readFloat64, float64Number, FloatValue.number, hspecial, hf, ↓reduceIte]
  · by_cases hsub : (bits.extractLsb' 52 11).toNat = 0
    · simp only [readFloat64, float64Number, FloatValue.number, hsub, OfNat.zero_ne_ofNat, ↓reduceIte]
    · simp only [readFloat64, float64Number, FloatValue.number, hspecial, hsub, ↓reduceIte, Nat.cast_add,
        Nat.cast_pow, Nat.cast_ofNat]

/-- Scaling a magnitude by a power of two and dropping the fraction is the floor of the exact product (R94). -/
theorem scaleDown_eq_floor (mag : Nat) (k : Int) : (scaleDown mag k : Int) = ⌊(mag : ℚ) * 2 ^ k⌋ := by
  rcases le_or_gt 0 k with hk | hk
  · lift k to Nat using hk
    have hcast : (mag : ℚ) * 2 ^ (k : Int) = ((mag * 2 ^ k : Nat) : ℚ) := by simp
    rw [hcast, Int.floor_natCast, scaleDown, if_pos (Int.natCast_nonneg k), Int.toNat_natCast]
  · obtain ⟨m, rfl⟩ : ∃ m : Nat, k = -m := ⟨(-k).toNat, by omega⟩
    have hcast : (mag : ℚ) * 2 ^ (-(m : Int)) = (mag : ℚ) / ((2 ^ m : Nat) : ℚ) := by
      simp [zpow_neg, div_eq_mul_inv]
    rw [hcast, Rat.floor_natCast_div_natCast, scaleDown, if_neg (by omega)]
    simp

/-- Truncation toward zero commutes with the sign (R94). -/
theorem truncateRational_neg (r : ℚ) : truncateRational (-r) = -truncateRational r := by
  rcases lt_trichotomy r 0 with hr | rfl | hr
  · rw [truncateRational, truncateRational, if_pos (by linarith), if_neg (by linarith), neg_neg]
  · simp [truncateRational]
  · rw [truncateRational, truncateRational, if_neg (by linarith), if_pos hr.le, neg_neg]

/-- The model's integer is the truncation of the exact product `d * 2^q` (R94). -/
theorem truncScaled_eq_truncateRational (neg : Bool) (mag : Nat) (exp : Int) (q : Nat) :
    truncScaled neg mag exp q = truncateRational ((if neg then -1 else 1) * mag * 2 ^ exp * 2 ^ q) := by
  have hscale : (mag : ℚ) * 2 ^ exp * 2 ^ q = mag * 2 ^ (exp + q) := by
    rw [zpow_add₀ (by norm_num), zpow_natCast, mul_assoc]
  have hmag : (scaleDown mag (exp + q) : Int) = truncateRational ((mag : ℚ) * 2 ^ exp * 2 ^ q) := by
    rw [scaleDown_eq_floor, hscale, truncateRational, if_pos (by positivity)]
  cases neg
  · simpa [truncScaled] using hmag
  · simpa [truncScaled, truncateRational_neg] using hmag

variable {b : Bank} {rd : RegIndex} {q : Precision} {s : State}

/-- A NaN or an infinity raises `FloatRange`, code 5 (R95, R199). -/
theorem exec_fromf64_of_none (hq : q.toNat ≤ b.width - 1) (hnum : float64Number s.port.in0 = none) :
    exec (.fromf64 b rd q) s = .next (s.afterFault 5) := by
  rw [← number_readFloat64] at hnum
  have hrun : exec (.fromf64 b rd q) s = _ := withPrecision_of_le hq
  cases hval : readFloat64 s.port.in0 with
  | nan => rw [hrun, hval]; rfl
  | infinite neg => rw [hrun, hval]; rfl
  | finite neg mag exp => simp [hval, FloatValue.number] at hnum

/-- A finite number is truncated once; the integer is stored where it fits, and raises `FloatRange`, code 5, where it
does not (R94, R199). -/
theorem exec_fromf64_of_some (hq : q.toNat ≤ b.width - 1) {d : ℚ} (hnum : float64Number s.port.in0 = some d) :
    exec (.fromf64 b rd q) s =
      if InRange b.width (truncateRational (d * 2 ^ q.toNat)) then
        .next (s.writeReg b rd (wrap b.width (truncateRational (d * 2 ^ q.toNat))) q)
      else .next (s.afterFault 5) := by
  rw [← number_readFloat64] at hnum
  have hrun : exec (.fromf64 b rd q) s = _ := withPrecision_of_le hq
  cases hval : readFloat64 s.port.in0 with
  | nan => simp [hval, FloatValue.number] at hnum
  | infinite neg => simp [hval, FloatValue.number] at hnum
  | finite neg mag exp =>
    simp only [hval, FloatValue.number, Option.some.injEq] at hnum
    rw [hrun, hval, ← hnum, ← truncScaled_eq_truncateRational]
    rfl

end Sys2Proof.Machine

open Sys2Proof Sys2Proof.Machine

/-- Settles O28: the two ways of reading the pattern agree on which numbers it stands for, and the model's scaled
magnitude is the truncation of the exact product. -/
theorem fromf64StoresTheTruncatedProduct : Obligations.Fromf64StoresTheTruncatedProduct := by
  refine ⟨encodedAs_fromf64, fun b rd q s _ => ?_⟩
  split
  next hq => exact exec_fromf64_of_gt hq
  next hq =>
    have hq : q.toNat ≤ b.width - 1 := Nat.not_lt.mp hq
    split
    next hnum => exact exec_fromf64_of_none hq hnum
    next d hnum =>
      rw [exec_fromf64_of_some hq hnum]
      split
      next => exact ⟨_, rfl, s.writeReg_storedIn b rd _ q⟩
      next => rfl

end

section
/-! The way back from `FROMINT` through `TOINT` (40_construction.md R96, 43_conversion.md R157): the shift down undoes
the shift up, and neither end is wrapped. -/

namespace Sys2Proof.Machine

/-- `TOINT` of a constructed register (R157). -/
theorem exec_toint_of_valid {b : Bank} {ra : RegIndex} {s : State} (hv : (s.reg b ra).v = true) :
    exec (.toint b ra) s =
      .next (s.writeY ((wrap b.width (asr (s.reg b ra).raw.toInt (s.reg b ra).q.toNat)).signExtend 64)) :=
  if_pos hv

/-- An integer in range of a bank survives the widening to the result register (R157). -/
theorem toInt_signExtend_wrap {b : Bank} {z : Int} (h : InRange b.width z) :
    ((wrap b.width z).signExtend 64).toInt = z := by
  have hwidth : 0 < b.width ∧ b.width ≤ 64 := by cases b <;> decide
  rw [BitVec.toInt_signExtend_of_le hwidth.2, wrap_toInt_of_inRange hwidth.1 h]

/-- A right shift undoes a left shift by as many places (R8). -/
theorem asr_mul_two_pow (z : Int) (k : Nat) : asr (z * 2 ^ k) k = z :=
  Int.mul_ediv_cancel z (by positivity)

end Sys2Proof.Machine

open Sys2Proof Sys2Proof.Machine

/-- Settles O29: the scaled integer is stored unwrapped with no overflow, so `TOINT` shifts it back to the integer the
port held. -/
theorem integerRoundTrip : Obligations.IntegerRoundTrip := by
  intro b rd q s _ hq hfit
  have hwidth : 0 < b.width := by cases b <;> decide
  refine ⟨_, _, exec_fromint_of_inRange hq hfit, exec_toint_of_valid (by simp), ?_, by simp⟩
  rw [State.writeY_y, State.reg_writeReg_same, wrap_toInt_of_inRange hwidth hfit, asr_mul_two_pow]
  exact toInt_signExtend_wrap (inRange_toInt _)

end

section
/-! The words of the arithmetic commands (30_encoding.md R69, R70; 41_alignment_arithmetic.md R112 to R116). -/

namespace Sys2Proof.Machine

/-- The words of `ADD` (R112). -/
theorem encodedAs_add : EncodedAs 0x10 .A (fun f => .add f.bank f.rd f.ra f.rb) :=
  encodedAs_of_decodeFields fun f hop => by cases f; cases hop; rfl

/-- The words of `SUB` (R113). -/
theorem encodedAs_sub : EncodedAs 0x11 .A (fun f => .sub f.bank f.rd f.ra f.rb) :=
  encodedAs_of_decodeFields fun f hop => by cases f; cases hop; rfl

/-- The words of `MUL` (R115). -/
theorem encodedAs_mul : EncodedAs 0x12 .A (fun f => .mul f.bank f.rd f.ra f.rb) :=
  encodedAs_of_decodeFields fun f hop => by cases f; cases hop; rfl

/-- The words of `DIV` (R116). -/
theorem encodedAs_div : EncodedAs 0x13 .A (fun f => .div f.bank f.rd f.ra f.rb) :=
  encodedAs_of_decodeFields fun f hop => by cases f; cases hop; rfl

/-- The words of `REM` (R114). -/
theorem encodedAs_rem : EncodedAs 0x14 .A (fun f => .rem f.bank f.rd f.ra f.rb) :=
  encodedAs_of_decodeFields fun f hop => by cases f; cases hop; rfl

end Sys2Proof.Machine

end

section
/-! Alignment (41_alignment_arithmetic.md R110, R111): the three branches of `ALIGN` all give each operand at the smaller
of the two precisions. -/

namespace Sys2Proof.Machine

variable {n : Nat} (x y : NumReg n)

/-- Both operands at their common precision, in the spec's words (R110). -/
def alignedPair : Aligned where
  a := alignedTo x (commonPrecision x y)
  b := alignedTo y (commonPrecision x y)
  qc := commonPrecision x y

theorem commonPrecision_of_le (h : x.q.toNat ≤ y.q.toNat) : commonPrecision x y = x.q := if_pos h

theorem commonPrecision_of_gt (h : y.q.toNat < x.q.toNat) : commonPrecision x y = y.q := if_neg (Nat.not_le.mpr h)

/-- No bit of an operand is surplus at its own precision (R110). -/
@[simp] theorem alignedTo_own : alignedTo x x.q = x.raw.toInt := by simp [alignedTo]

/-- Every branch of `ALIGN` is the spec's pair of aligned values (R110). -/
theorem align_eq_alignedPair : align x.raw.toInt x.q y.raw.toInt y.q = alignedPair x y := by
  rcases align_branches x.raw.toInt x.q y.raw.toInt y.q with ⟨heq, hal⟩ | ⟨hgt, hal⟩ | ⟨hlt, hal⟩
  · have hy : alignedTo y x.q = y.raw.toInt := by rw [heq, alignedTo_own]
    rw [hal, alignedPair, commonPrecision_of_le x y (by rw [heq]), alignedTo_own, hy]
  · rw [hal, alignedPair, commonPrecision_of_gt x y hgt, alignedTo_own]; rfl
  · rw [hal, alignedPair, commonPrecision_of_le x y hlt.le, alignedTo_own]; rfl

/-- An aligned value is in range of the bank (R111 (c)). -/
theorem inRange_alignedTo (p : Precision) : InRange n (alignedTo x p) :=
  inRange_asr _ (inRange_toInt x.raw)

/-- Alignment makes a value zero exactly when all it has are surplus bits (R121). -/
theorem alignedTo_eq_zero_iff (p : Precision) :
    alignedTo x p = 0 ↔ 0 ≤ x.raw.toInt ∧ x.raw.toInt < 2 ^ (x.q.toNat - p.toNat) := by
  rw [alignedTo, Int.ediv_eq_iff_of_pos (by positivity), zero_mul, zero_add]

end Sys2Proof.Machine

end

section
/-! What the arithmetic commands answer (41_alignment_arithmetic.md R112 to R117, R121): an unconstructed source faults,
and constructed ones leave the command its rule on the aligned pair. -/

namespace Sys2Proof.Machine

section AlignedSources

variable {b : Bank} {rd ra rb : RegIndex} {s : State} {rule : Aligned → Result}

/-- Two constructed sources are aligned (R117). -/
theorem withAligned_of_valid (hv : (s.reg b ra).v = true ∧ (s.reg b rb).v = true) :
    withAligned s b ra rb rule = rule (alignedPair (s.reg b ra) (s.reg b rb)) := by
  rcases withAligned_eq s b ra rb rule with ⟨_, _, hrun⟩ | ⟨hnot, _⟩
  · rw [hrun, align_eq_alignedPair]
  · exact absurd hv hnot

/-- An unconstructed source raises `Unconstructed`, code 3 (R24, R192). -/
theorem withAligned_of_not_valid (hv : ¬((s.reg b ra).v = true ∧ (s.reg b rb).v = true)) :
    withAligned s b ra rb rule = .next (s.afterFault 3) := by
  rcases withAligned_eq s b ra rb rule with ⟨ha, hb, _⟩ | ⟨_, hraise⟩
  · exact absurd ⟨ha, hb⟩ hv
  · exact hraise

/-- A command that stores, with overflow check, a result computed from the aligned pair (R10, R117): the common shape of
`ADD`, `SUB` and `MUL`. -/
theorem withAligned_storesChecked (f : Aligned → Int) :
    if (s.reg b ra).v = true ∧ (s.reg b rb).v = true then
      ∃ t, withAligned s b ra rb (fun v => .next (s.storeChecked b rd (f v) v.qc)) = .next t ∧
        s.StoredIn t b rd (wrap b.width (f (alignedPair (s.reg b ra) (s.reg b rb))))
          (commonPrecision (s.reg b ra) (s.reg b rb))
          (¬ InRange b.width (f (alignedPair (s.reg b ra) (s.reg b rb))))
    else withAligned s b ra rb (fun v => .next (s.storeChecked b rd (f v) v.qc)) = .next (s.afterFault 3) := by
  split
  next hv => exact ⟨_, withAligned_of_valid hv, s.storeChecked_storedIn b rd _ _⟩
  next hv => exact withAligned_of_not_valid hv

end AlignedSources

/-- The rule of `DIV` (R116, R121). -/
theorem exec_div (b : Bank) (rd ra rb : RegIndex) (s : State) :
    exec (.div b rd ra rb) s = withAligned s b ra rb fun v =>
      if v.b = 0 then .next (s.raise .divideByZero)
      else .next (s.storeChecked b rd (tdiv (shl v.a v.qc.toNat) v.b) v.qc) := rfl

/-- The rule of `REM` (R114, R121). -/
theorem exec_rem (b : Bank) (rd ra rb : RegIndex) (s : State) :
    exec (.rem b rd ra rb) s = withAligned s b ra rb fun v =>
      if v.b = 0 then .next (s.raise .divideByZero)
      else .next (s.writeReg b rd (wrap b.width (trem v.a v.b)) v.qc) := rfl

section Division

variable {b : Bank} {rd ra rb : RegIndex} {s : State} {p : Precision} {x y : Int}
  (hp : p = commonPrecision (s.reg b ra) (s.reg b rb)) (hx : x = alignedTo (s.reg b ra) p)
  (hy : y = alignedTo (s.reg b rb) p) (hv : (s.reg b ra).v = true ∧ (s.reg b rb).v = true)

include hp hx hy hv

/-- `DIV` tests the aligned divisor, then divides the scaled dividend toward zero (R116, R121). -/
theorem exec_div_of_valid :
    exec (.div b rd ra rb) s =
      if y = 0 then .next (s.afterFault 4)
      else .next (s.storeChecked b rd ((x * 2 ^ p.toNat).tdiv y) p) := by
  rw [← tdiv_eq]
  subst hp hx hy
  exact (exec_div ..).trans (withAligned_of_valid hv)

/-- `REM` tests the aligned divisor, then stores the remainder without a check (R114, R121). -/
theorem exec_rem_of_valid :
    exec (.rem b rd ra rb) s =
      if y = 0 then .next (s.afterFault 4)
      else .next (s.writeReg b rd (wrap b.width (x.tmod y)) p) := by
  rw [← trem_eq]
  subst hp hx hy
  exact (exec_rem ..).trans (withAligned_of_valid hv)

end Division

/-- A remainder is smaller than its divisor in magnitude, so it is in every range the divisor is in (R114). -/
theorem inRange_tmod {n : Nat} {x y : Int} (hy : InRange n y) (h0 : y ≠ 0) : InRange n (x.tmod y) := by
  have hlt : (x.tmod y).natAbs < y.natAbs := by
    rw [Int.natAbs_tmod]
    exact Nat.mod_lt _ (Int.natAbs_pos.mpr h0)
  obtain ⟨hlow, hhigh⟩ := hy
  constructor <;> omega

end Sys2Proof.Machine

open Sys2Proof Sys2Proof.Machine

/-- Settles O31: the checked store of the sum of the aligned pair. -/
theorem addStoresTheAlignedSum : Obligations.AddStoresTheAlignedSum := by
  refine ⟨encodedAs_add, ?_⟩
  rintro b rd ra rb s _ _ _ - rfl rfl rfl
  exact withAligned_storesChecked fun v => v.a + v.b

/-- Settles O32: the checked store of the difference of the aligned pair. -/
theorem subStoresTheAlignedDifference : Obligations.SubStoresTheAlignedDifference := by
  refine ⟨encodedAs_sub, ?_⟩
  rintro b rd ra rb s _ _ _ - rfl rfl rfl
  exact withAligned_storesChecked fun v => v.a - v.b

/-- Settles O33: the checked store of the product of the aligned pair, shifted down by the common precision. -/
theorem mulStoresTheNormalizedProduct : Obligations.MulStoresTheNormalizedProduct := by
  refine ⟨encodedAs_mul, ?_⟩
  rintro b rd ra rb s _ _ _ - rfl rfl rfl
  exact withAligned_storesChecked fun v => asr (v.a * v.b) v.qc.toNat

/-- Settles O34: sources first, then the aligned divisor, then one checked store. -/
theorem divStoresTheScaledQuotient : Obligations.DivStoresTheScaledQuotient := by
  refine ⟨encodedAs_div, fun b rd ra rb s p x y _ hp hx hy => ?_⟩
  split
  next hv =>
    rw [exec_div_of_valid hp hx hy hv]
    split
    next => rfl
    next => exact ⟨_, rfl, s.storeChecked_storedIn b rd _ p⟩
  next hv => exact (exec_div ..).trans (withAligned_of_not_valid hv)

/-- Settles O35: as `DIV`, but the remainder is smaller than the divisor and needs no check. -/
theorem remStoresTheAlignedRemainder : Obligations.RemStoresTheAlignedRemainder := by
  refine ⟨encodedAs_rem, fun b rd ra rb s p x y _ hp hx hy => ?_⟩
  split
  next hv =>
    have hrange : InRange b.width y := hy ▸ inRange_alignedTo (s.reg b rb) p
    rw [exec_rem_of_valid hp hx hy hv]
    split
    next => rfl
    next h0 => exact ⟨_, rfl, inRange_tmod hrange h0, s.writeReg_storedIn b rd _ p⟩
  next hv => exact (exec_rem ..).trans (withAligned_of_not_valid hv)

end

section
/-! The zero test of `DIV` and `REM` (41_alignment_arithmetic.md R121): the aligned divisor decides alone whether both
commands fault. -/

namespace Sys2Proof.Machine

variable {b : Bank} {rd ra rb : RegIndex} {s : State}

/-- A divisor that is zero after alignment raises `DivideByZero`, code 4, in both commands (R121). -/
theorem div_rem_fault_of_aligned_zero (hv : (s.reg b ra).v = true ∧ (s.reg b rb).v = true)
    (hzero : alignedTo (s.reg b rb) (commonPrecision (s.reg b ra) (s.reg b rb)) = 0) :
    exec (.div b rd ra rb) s = .next (s.afterFault 4) ∧ exec (.rem b rd ra rb) s = .next (s.afterFault 4) := by
  rw [exec_div_of_valid rfl rfl rfl hv, exec_rem_of_valid rfl rfl rfl hv, if_pos hzero, if_pos hzero]
  exact ⟨rfl, rfl⟩

/-- Any other divisor lets both commands complete (R121). -/
theorem div_rem_complete_of_aligned_ne_zero (hrun : s.Running)
    (hv : (s.reg b ra).v = true ∧ (s.reg b rb).v = true)
    (hne : alignedTo (s.reg b rb) (commonPrecision (s.reg b ra) (s.reg b rb)) ≠ 0) :
    (∃ t, exec (.div b rd ra rb) s = .next t ∧ t.status.fault = false) ∧
    (∃ t, exec (.rem b rd ra rb) s = .next t ∧ t.status.fault = false) := by
  rw [exec_div_of_valid rfl rfl rfl hv, exec_rem_of_valid rfl rfl rfl hv, if_neg hne, if_neg hne]
  obtain ⟨hdiv, -, -⟩ := (s.storeChecked_storedIn b rd _ _).otherStatus
  obtain ⟨hrem, -, -⟩ := (s.writeReg_storedIn b rd _ _).otherStatus
  exact ⟨⟨_, rfl, hdiv.trans hrun⟩, ⟨_, rfl, hrem.trans hrun⟩⟩

end Sys2Proof.Machine

open Sys2Proof Sys2Proof.Machine

/-- Settles O37: the two outcomes of the zero test, and for each special case whether the divisor is made of surplus bits
alone. -/
theorem divisorIsTestedAfterAlignment : Obligations.DivisorIsTestedAfterAlignment := by
  intro b rd ra rb s hrun ha hb
  have hfault := div_rem_fault_of_aligned_zero (rd := rd) ⟨ha, hb⟩
  have hcomplete := div_rem_complete_of_aligned_ne_zero (rd := rd) hrun ⟨ha, hb⟩
  refine ⟨?_, fun hlt hnonneg hsmall => hfault ?_, fun hraw => hfault ?_, fun hneg => hcomplete fun hzero => ?_⟩
  · split
    next hzero => exact hfault hzero
    next hne => exact hcomplete hne
  · rw [commonPrecision_of_le _ _ hlt.le]
    exact (alignedTo_eq_zero_iff ..).mpr ⟨hnonneg, hsmall⟩
  · simp [alignedTo, hraw]
  · exact absurd ((alignedTo_eq_zero_iff ..).mp hzero).1 (Int.not_le.mpr hneg)

end

section
/-! The widths of the intermediates of `MUL` and `DIV` (41_alignment_arithmetic.md R124): a product of two magnitudes of at
most `2^(N-1)` is at most `2^(2N-2)`, half of what `2N` bits can hold. -/

namespace Sys2Proof.Machine

/-- The magnitude of an `n`-bit number (R6). -/
theorem abs_le_of_inRange {n : Nat} {z : Int} (h : InRange n z) : |z| ≤ 2 ^ (n - 1) :=
  abs_le.mpr ⟨h.1, by omega⟩

/-- A magnitude below the limit of `n` bits is in their range (R6). -/
theorem inRange_of_abs_lt {n : Nat} {z : Int} (h : |z| < 2 ^ (n - 1)) : InRange n z := by
  obtain ⟨hlow, hhigh⟩ := abs_lt.mp h
  exact ⟨hlow.le, by omega⟩

/-- Two factors of at most `2^(n-1)` in magnitude (R124). -/
theorem abs_mul_le_two_pow {n : Nat} {x y : Int} (hx : |x| ≤ 2 ^ (n - 1)) (hy : |y| ≤ 2 ^ (n - 1)) :
    |x * y| ≤ 2 ^ (2 * n - 2) := by
  have hexp : 2 * n - 2 = (n - 1) + (n - 1) := by omega
  rw [abs_mul, hexp, pow_add]
  exact mul_le_mul hx hy (abs_nonneg y) (by positivity)

/-- Shifting an `n`-bit number up by at most `n - 1` places (R124). -/
theorem abs_shl_le_two_pow {n p : Nat} {x : Int} (hx : |x| ≤ 2 ^ (n - 1)) (hp : p ≤ n - 1) :
    |shl x p| ≤ 2 ^ (2 * n - 2) := by
  have hpow : |(2 : Int) ^ p| ≤ 2 ^ (n - 1) := by
    rw [abs_of_pos (by positivity)]
    exact pow_le_pow_right₀ (by decide) hp
  exact abs_mul_le_two_pow hx hpow

/-- The quotient toward zero is not larger than the dividend (R124). -/
theorem abs_tdiv_le (x y : Int) : |tdiv x y| ≤ |x| := by
  rw [tdiv_eq, Int.abs_eq_natAbs, Int.abs_eq_natAbs]
  exact_mod_cast Int.natAbs_tdiv_le_natAbs x y

/-- `2N` bits hold a magnitude of at most `2^(2N-2)` (R124). -/
theorem inRange_wideWidth_of_abs_le {b : Bank} {z : Int} (h : |z| ≤ 2 ^ (2 * b.width - 2)) :
    InRange b.wideWidth z := by
  have hexp : 2 * b.width - 2 < b.wideWidth - 1 := by cases b <;> decide
  exact inRange_of_abs_lt (h.trans_lt (pow_lt_pow_right₀ (by decide) hexp))

end Sys2Proof.Machine

open Sys2Proof Sys2Proof.Machine

/-- Settles O41: the product and the scaled dividend are products of two magnitudes of at most `2^(N-1)`, and neither the
shift nor the division makes them larger. -/
theorem wideIntermediatesFit : Obligations.WideIntermediatesFit := by
  intro b x y p hx hy hp
  have hmul : |x * y| ≤ 2 ^ (2 * b.width - 2) := abs_mul_le_two_pow (abs_le_of_inRange hx) (abs_le_of_inRange hy)
  have hshl : |shl x p| ≤ 2 ^ (2 * b.width - 2) := abs_shl_le_two_pow (abs_le_of_inRange hx) hp
  have hwide : InRange b.wideWidth (x * y) := inRange_wideWidth_of_abs_le hmul
  have hquot : |tdiv (shl x p) y| ≤ |shl x p| := abs_tdiv_le _ _
  exact ⟨hmul, hwide, inRange_asr p hwide, hshl, inRange_wideWidth_of_abs_le hshl,
    fun _ => ⟨hquot, inRange_wideWidth_of_abs_le (hquot.trans hshl)⟩⟩

end

section
/-! The words of the comparison commands (30_encoding.md R69, R70; 42_comparison.md R142 to R147). -/

namespace Sys2Proof.Machine

/-- The words of `EQ` (R142). -/
theorem encodedAs_eq : EncodedAs 0x18 .P (fun f => .eq f.bank f.ra f.rb) :=
  encodedAs_of_decodeFields fun f hop => by cases f; cases hop; rfl

/-- The words of `NE` (R143). -/
theorem encodedAs_ne : EncodedAs 0x19 .P (fun f => .ne f.bank f.ra f.rb) :=
  encodedAs_of_decodeFields fun f hop => by cases f; cases hop; rfl

/-- The words of `LT` (R144). -/
theorem encodedAs_lt : EncodedAs 0x1A .P (fun f => .lt f.bank f.ra f.rb) :=
  encodedAs_of_decodeFields fun f hop => by cases f; cases hop; rfl

/-- The words of `GT` (R145). -/
theorem encodedAs_gt : EncodedAs 0x1B .P (fun f => .gt f.bank f.ra f.rb) :=
  encodedAs_of_decodeFields fun f hop => by cases f; cases hop; rfl

/-- The words of `LE` (R146). -/
theorem encodedAs_le : EncodedAs 0x1C .P (fun f => .le f.bank f.ra f.rb) :=
  encodedAs_of_decodeFields fun f hop => by cases f; cases hop; rfl

/-- The words of `GE` (R147). -/
theorem encodedAs_ge : EncodedAs 0x1D .P (fun f => .ge f.bank f.ra f.rb) :=
  encodedAs_of_decodeFields fun f hop => by cases f; cases hop; rfl

end Sys2Proof.Machine

end

section
/-! What the comparison commands answer (42_comparison.md R140 to R147): each reads and aligns its sources as the
arithmetic commands do, and writes 1 or 0 to `Y`. -/

namespace Sys2Proof.Machine

/-- A truth value is written to `Y` as 1 or 0, with `YV` (R28, R141). -/
theorem State.writeY_truth (s : State) (p : Prop) [Decidable p] :
    s.writeY (truth (decide p)) = s.afterY (if p then 1 else 0) := by
  simp only [truth, decide_eq_true_eq]; rfl

section Rules

variable (b : Bank) (ra rb : RegIndex) (s : State)

/-- The rule of `EQ` (R142). -/
theorem exec_eq : exec (.eq b ra rb) s =
    withAligned s b ra rb fun v => .next (s.afterY (if v.a = v.b then 1 else 0)) := by
  simp only [← State.writeY_truth]; rfl

/-- The rule of `NE` (R143), as the opposite of `EQ`. -/
theorem exec_ne : exec (.ne b ra rb) s =
    withAligned s b ra rb fun v => .next (s.afterY (if v.a = v.b then 0 else 1)) := by
  simp only [← ite_not (_ = _), ← State.writeY_truth]; rfl

/-- The rule of `LT` (R144). -/
theorem exec_lt : exec (.lt b ra rb) s =
    withAligned s b ra rb fun v => .next (s.afterY (if v.a < v.b then 1 else 0)) := by
  simp only [← State.writeY_truth]; rfl

/-- The rule of `GT` (R145). -/
theorem exec_gt : exec (.gt b ra rb) s =
    withAligned s b ra rb fun v => .next (s.afterY (if v.b < v.a then 1 else 0)) := by
  simp only [← State.writeY_truth]; rfl

/-- The rule of `LE` (R146). -/
theorem exec_le : exec (.le b ra rb) s =
    withAligned s b ra rb fun v => .next (s.afterY (if v.a ≤ v.b then 1 else 0)) := by
  simp only [← State.writeY_truth]; rfl

/-- The rule of `GE` (R147). -/
theorem exec_ge : exec (.ge b ra rb) s =
    withAligned s b ra rb fun v => .next (s.afterY (if v.b ≤ v.a then 1 else 0)) := by
  simp only [← State.writeY_truth]; rfl

end Rules

end Sys2Proof.Machine

open Sys2Proof Sys2Proof.Machine

/-- Settles O42: each rule on the aligned pair of two constructed sources, and its fault on an unconstructed one. -/
theorem comparisonsWriteTheirTruthValue : Obligations.ComparisonsWriteTheirTruthValue := by
  refine ⟨⟨encodedAs_eq, encodedAs_ne, encodedAs_lt, encodedAs_gt, encodedAs_le, encodedAs_ge⟩, ?_⟩
  rintro b ra rb s _ _ _ - rfl rfl rfl
  split
  next hv =>
    exact ⟨(exec_eq ..).trans (withAligned_of_valid hv), (exec_ne ..).trans (withAligned_of_valid hv),
      (exec_lt ..).trans (withAligned_of_valid hv), (exec_gt ..).trans (withAligned_of_valid hv),
      (exec_le ..).trans (withAligned_of_valid hv), (exec_ge ..).trans (withAligned_of_valid hv)⟩
  next hv =>
    have hfault {rule : Aligned → Result} : withAligned s b ra rb rule = .next (s.afterFault 3) :=
      withAligned_of_not_valid hv
    simp [exec_eq, exec_ne, exec_lt, exec_gt, exec_le, exec_ge, hfault]

end

section
/-! The words of the conversion commands (30_encoding.md R69, R70; 43_conversion.md R157 to R162). -/

namespace Sys2Proof.Machine

/-- The words of `TOINT` (R157). -/
theorem encodedAs_toint : EncodedAs 0x20 .V (fun f => .toint f.bank f.ra) :=
  encodedAs_of_decodeFields fun f hop => by cases f; cases hop; rfl

/-- The words of `FRAC` (R158). -/
theorem encodedAs_frac : EncodedAs 0x21 .V (fun f => .frac f.bank f.ra) :=
  encodedAs_of_decodeFields fun f hop => by cases f; cases hop; rfl

/-- The words of `FRACDIV` (R159). -/
theorem encodedAs_fracdiv : EncodedAs 0x22 .V (fun f => .fracdiv f.bank f.ra) :=
  encodedAs_of_decodeFields fun f hop => by cases f; cases hop; rfl

/-- The words of `TOF32` (R162). -/
theorem encodedAs_tof32 : EncodedAs 0x23 .V (fun f => .tof32 f.bank f.ra) :=
  encodedAs_of_decodeFields fun f hop => by cases f; cases hop; rfl

/-- The words of `TOF64` (R161). -/
theorem encodedAs_tof64 : EncodedAs 0x24 .V (fun f => .tof64 f.bank f.ra) :=
  encodedAs_of_decodeFields fun f hop => by cases f; cases hop; rfl

end Sys2Proof.Machine

end

section
/-! A command with one source (10_state.md R24, 60_exceptions.md R192): a constructed register leaves the command its
rule, any other faults. -/

namespace Sys2Proof.Machine

variable {s : State} {b : Bank} {ra : RegIndex} {rule : NumReg b.width → Result}

/-- A constructed source leaves the command its rule (R24). -/
theorem withSource_of_valid (hv : (s.reg b ra).v = true) : withSource s b ra rule = rule (s.reg b ra) :=
  if_pos hv

/-- An unconstructed source raises `Unconstructed`, code 3 (R24, R192). -/
theorem withSource_of_not_valid (hv : ¬(s.reg b ra).v = true) : withSource s b ra rule = .next (s.afterFault 3) :=
  if_neg hv

end Sys2Proof.Machine

end

section
/-! `TOINT` (43_conversion.md R157): the right shift is the floor of the number, and the floor is in the range of the
bank, so neither the wrap nor the widening changes it. -/

namespace Sys2Proof.Machine

/-- The rule of `TOINT` (R157). -/
theorem exec_toint (b : Bank) (ra : RegIndex) (s : State) :
    exec (.toint b ra) s = withSource s b ra fun r =>
      .next (s.afterY ((wrap b.width (asr r.raw.toInt r.q.toNat)).signExtend 64)) := rfl

/-- Shifting the raw value down by its fractional bits is the floor of the number (R7, R8). -/
theorem asr_raw_eq_floor_number {n : Nat} (x : NumReg n) : asr x.raw.toInt x.q.toNat = ⌊x.number⌋ := by
  have hcast : x.number = (x.raw.toInt : ℚ) / ((2 ^ x.q.toNat : Nat) : ℚ) := by
    rw [NumReg.number, Nat.cast_pow, Nat.cast_ofNat]
  rw [hcast, Rat.floor_intCast_div_natCast, asr, Nat.cast_pow, Nat.cast_ofNat]

end Sys2Proof.Machine

open Sys2Proof Sys2Proof.Machine

/-- Settles O45: the shifted raw value is the floor, and in range it survives the way into `Y`. -/
theorem tointWritesTheFloor : Obligations.TointWritesTheFloor := by
  refine ⟨encodedAs_toint, fun b ra s _ => ?_⟩
  split
  next hv =>
    have hrange : InRange b.width (asr (s.reg b ra).raw.toInt (s.reg b ra).q.toNat) := inRange_asr _ (inRange_toInt _)
    refine ⟨_, exec_toint_of_valid hv, ?_, ?_⟩
    · rw [toInt_signExtend_wrap hrange, asr_raw_eq_floor_number]
    · rwa [toInt_signExtend_wrap hrange]
  next hv => exact (exec_toint ..).trans (withSource_of_not_valid hv)

end

section
/-! The digits of `FRAC` (43_conversion.md R158, R160), as quotients of natural numbers. With an extra digit and half up
they are the rounded fraction. They reach `10^d` only where the fraction lacks a single unit of its last place: by the
digit table (20_memory.md R51) a fraction that lacks two is more than half a digit below 1. -/

namespace Sys2Proof.Machine

/-- The fractional bits of a register: its raw value modulo `2^q` (R158). -/
def NumReg.fraction {n : Nat} (x : NumReg n) : Nat := x.raw.toNat % 2 ^ x.q.toNat

theorem NumReg.fraction_lt {n : Nat} (x : NumReg n) : x.fraction < 2 ^ x.q.toNat :=
  Nat.mod_lt _ (by positivity)

/-- The fractional bits are what the raw value exceeds its floor by, for a negative one too (R158). -/
theorem NumReg.fraction_eq {n : Nat} (x : NumReg n) (hq : x.q.toNat ≤ n) :
    (x.fraction : Int) = x.raw.toInt - x.raw.toInt / 2 ^ x.q.toNat * 2 ^ x.q.toNat := by
  have hdvd : (2 : Int) ^ x.q.toNat ∣ ((2 ^ n : Nat) : Int) := by
    rw [Nat.cast_pow]
    exact pow_dvd_pow 2 hq
  have hmod : x.raw.toInt % 2 ^ x.q.toNat = x.raw.toNat % 2 ^ x.q.toNat := by
    rw [← Int.emod_emod_of_dvd _ hdvd, BitVec.toInt_eq_toNat_bmod, Int.bmod_emod, Int.emod_emod_of_dvd _ hdvd]
  have hdef := Int.emod_def x.raw.toInt (2 ^ x.q.toNat)
  rw [mul_comm] at hdef
  rw [← hdef, hmod]
  simp [NumReg.fraction]

section Digits

variable {f q d : Nat}

/-- Below the cap an extra digit is rounded half up (R158). -/
theorem fracDigits_of_lt (hd : d < 9) : fracDigits f q d = (f * 10 ^ (d + 1) / 2 ^ q + 5) / 10 := if_pos hd

/-- At the cap of nine digits the fraction is truncated (R158). -/
theorem fracDigits_nine (f q : Nat) : fracDigits f q 9 = f * 10 ^ 9 / 2 ^ q := rfl

/-- The extra digit rounded half up is the exact fraction rounded half up (R158). -/
theorem fracDigits_eq_floor (hd : d < 9) : (fracDigits f q d : Int) = ⌊(f : ℚ) / 2 ^ q * 10 ^ d + 1 / 2⌋ := by
  have hquot : (f : ℚ) / 2 ^ q * 10 ^ d + 1 / 2 =
      ((f * 10 ^ (d + 1) + 5 * 2 ^ q : Nat) : ℚ) / ((2 ^ q * 10 : Nat) : ℚ) := by
    push_cast
    field_simp
    ring
  rw [hquot, Rat.floor_natCast_div_natCast, fracDigits_of_lt hd, ← Nat.add_mul_div_right _ _ (by positivity),
    Nat.div_div_eq_div_mul, Int.natCast_div]

/-- A fraction is below 1, so scaled by `k` it is below `k`. -/
theorem fraction_mul_div_lt {k : Nat} (hf : f < 2 ^ q) (hk : 0 < k) : f * k / 2 ^ q < k :=
  Nat.div_lt_of_lt_mul (Nat.mul_lt_mul_of_pos_right hf hk)

/-- `FRAC` does not exceed its divisor (R160). -/
theorem fracDigits_le (hf : f < 2 ^ q) (hd : d ≤ 9) : fracDigits f q d ≤ 10 ^ d := by
  rcases hd.lt_or_eq with hlt | rfl
  · have hscaled : f * 10 ^ (d + 1) / 2 ^ q < 10 ^ (d + 1) := fraction_mul_div_lt hf (by positivity)
    rw [fracDigits_of_lt hlt]
    omega
  · rw [fracDigits_nine]
    exact (fraction_mul_div_lt hf (by decide)).le

/-- `FRAC` reaches its divisor below the cap of nine digits only, and there when rounding up the extra digit carries
through (R160). -/
theorem fracDigits_eq_pow_iff (hf : f < 2 ^ q) (hd : d ≤ 9) :
    fracDigits f q d = 10 ^ d ↔ d < 9 ∧ (10 ^ (d + 1) - 5) * 2 ^ q ≤ f * 10 ^ (d + 1) := by
  rcases hd.lt_or_eq with hlt | rfl
  · have hle : fracDigits f q d ≤ 10 ^ d := fracDigits_le hf hd
    have hpos : 0 < 10 ^ d := by positivity
    rw [fracDigits_of_lt hlt] at hle ⊢
    rw [← Nat.le_div_iff_mul_le (by positivity)]
    omega
  · have hlt : fracDigits f q 9 < 10 ^ 9 := by
      rw [fracDigits_nine]
      exact fraction_mul_div_lt hf (by decide)
    exact iff_of_false hlt.ne fun hcap => absurd hcap.1 (lt_irrefl 9)

/-- "Within half a digit of 1" by what the fraction lacks of 1 (R160). -/
theorem within_half_digit_iff (hf : f ≤ 2 ^ q) :
    (10 ^ (d + 1) - 5) * 2 ^ q ≤ f * 10 ^ (d + 1) ↔ (2 ^ q - f) * 10 ^ (d + 1) ≤ 5 * 2 ^ q := by
  have hcomm : 10 ^ (d + 1) * 2 ^ q = 2 ^ q * 10 ^ (d + 1) := mul_comm _ _
  rw [Nat.sub_mul, Nat.sub_mul]
  omega

/-- The digit table leaves room for one unit of the last place within half a digit, and not for two: squared,
`2 * 10^(d+1) ≤ 5 * 2^q` contradicts `4^q < 10^(2d+1)` (R51, R160). -/
theorem lt_two_of_within_half_digit {g : Nat} (htable : 4 ^ q < 10 ^ (2 * d + 1))
    (hgap : g * 10 ^ (d + 1) ≤ 5 * 2 ^ q) : g < 2 := by
  by_contra htwo
  have hbound : 2 * 10 ^ (d + 1) ≤ 5 * 2 ^ q := (Nat.mul_le_mul_right _ (Nat.not_lt.mp htwo)).trans hgap
  have hsquare : (2 * 10 ^ (d + 1)) ^ 2 ≤ (5 * 2 ^ q) ^ 2 := Nat.pow_le_pow_left hbound 2
  have hten : (2 * 10 ^ (d + 1)) ^ 2 = 40 * 10 ^ (2 * d + 1) := by ring
  have hfour : (5 * 2 ^ q) ^ 2 = 25 * 4 ^ q := by
    rw [mul_pow, ← pow_mul, mul_comm q 2, pow_mul]
    rfl
  omega

end Digits

/-- The precisions at which one unit of the last place is within half a digit (R160), by the digit table (R51). -/
theorem last_place_within_half_digit_iff (q : Precision) :
    (QD q).toNat < 9 ∧ 10 ^ ((QD q).toNat + 1) ≤ 5 * 2 ^ q.toNat ↔ q.toNat ∈ [1, 8, 11, 18, 21, 28] := by
  revert q
  decide

/-- A fraction within half a digit of 1 has all its bits set, at one of six precisions (R160). -/
theorem near_one_iff (q : Precision) {f : Nat} (hf : f < 2 ^ q.toNat) :
    (QD q).toNat < 9 ∧ (10 ^ ((QD q).toNat + 1) - 5) * 2 ^ q.toNat ≤ f * 10 ^ ((QD q).toNat + 1) ↔
      q.toNat ∈ [1, 8, 11, 18, 21, 28] ∧ f = 2 ^ q.toNat - 1 := by
  rw [within_half_digit_iff hf.le, ← last_place_within_half_digit_iff]
  constructor
  · rintro ⟨hd, hnear⟩
    obtain ⟨-, htable, -⟩ := digitTableFollowsItsFormula q
    have hone : 2 ^ q.toNat - f = 1 := by
      have htwo := lt_two_of_within_half_digit (htable hd) hnear
      omega
    rw [hone, one_mul] at hnear
    exact ⟨⟨hd, hnear⟩, by omega⟩
  · rintro ⟨⟨hd, hnear⟩, rfl⟩
    have hone : 2 ^ q.toNat - (2 ^ q.toNat - 1) = 1 := by omega
    rw [hone, one_mul]
    exact ⟨hd, hnear⟩

end Sys2Proof.Machine

end

section
/-! `FRAC` and `FRACDIV` (43_conversion.md R158 to R160): in a constructed register the stored digit count is that of
the precision (10_state.md R23), and `Y` holds every value they can give. -/

namespace Sys2Proof.Machine

/-- The rule of `FRAC` (R158). -/
theorem exec_frac (b : Bank) (ra : RegIndex) (s : State) :
    exec (.frac b ra) s = withSource s b ra fun r =>
      .next (s.afterY (BitVec.ofNat 64 (fracDigits r.fraction r.q.toNat r.qd.toNat))) := rfl

/-- The rule of `FRACDIV` (R159). -/
theorem exec_fracdiv (b : Bank) (ra : RegIndex) (s : State) :
    exec (.fracdiv b ra) s = withSource s b ra fun r => .next (s.afterY (BitVec.ofNat 64 (10 ^ r.qd.toNat))) := rfl

/-- The digit count of a precision is at most nine (R51). -/
theorem QD_le_nine (q : Precision) : (QD q).toNat ≤ 9 := (digitTableFollowsItsFormula q).1

/-- A value of at most `10^9` is not cut off in `Y`. -/
theorem toNat_ofNat_of_le_pow {m d : Nat} (hm : m ≤ 10 ^ d) (hd : d ≤ 9) : (BitVec.ofNat 64 m).toNat = m := by
  have hcap : m ≤ 10 ^ 9 := hm.trans (Nat.pow_le_pow_right (by decide) hd)
  rw [BitVec.toNat_ofNat, Nat.mod_eq_of_lt (by omega)]

variable {b : Bank} {ra : RegIndex} {s : State}

/-- `FRAC` of a constructed register (R158). -/
theorem exec_frac_of_valid (hv : (s.reg b ra).v = true) (hsound : (s.reg b ra).Sound) :
    ∃ y : PortWord, exec (.frac b ra) s = .next (s.afterY y) ∧
      y.toNat = fracDigits (s.reg b ra).fraction (s.reg b ra).q.toNat (QD (s.reg b ra).q).toNat := by
  obtain ⟨-, hqd⟩ := hsound hv
  have hle := fracDigits_le (s.reg b ra).fraction_lt (QD_le_nine (s.reg b ra).q)
  refine ⟨_, (exec_frac ..).trans (withSource_of_valid hv), ?_⟩
  rw [hqd, toNat_ofNat_of_le_pow hle (QD_le_nine _)]

/-- `FRACDIV` of a constructed register (R159). -/
theorem exec_fracdiv_of_valid (hv : (s.reg b ra).v = true) (hsound : (s.reg b ra).Sound) :
    exec (.fracdiv b ra) s = .next (s.afterY (BitVec.ofNat 64 (10 ^ (QD (s.reg b ra).q).toNat))) := by
  obtain ⟨-, hqd⟩ := hsound hv
  rw [exec_fracdiv, withSource_of_valid hv, hqd]

end Sys2Proof.Machine

open Sys2Proof Sys2Proof.Machine

/-- Settles O46: the low bits are the fraction, and its digits are the rounded fraction below the cap. -/
theorem fracWritesTheDecimalFraction : Obligations.FracWritesTheDecimalFraction := by
  refine ⟨encodedAs_frac, ?_⟩
  rintro b ra s _ _ f - hsound rfl rfl hf
  split
  next hv =>
    obtain ⟨hq, -⟩ := hsound hv
    obtain ⟨y, hrun, hy⟩ := exec_frac_of_valid hv hsound
    obtain rfl : f = (s.reg b ra).fraction := by
      rw [← (s.reg b ra).fraction_eq (by omega)] at hf
      exact_mod_cast hf
    refine ⟨y, hrun, hy, fun hd => ?_⟩
    rw [hy, fracDigits_eq_floor hd]
  next hv => exact (exec_frac ..).trans (withSource_of_not_valid hv)

/-- Settles O49: the stored digit count is that of the precision. -/
theorem fracdivWritesThePowerOfTen : Obligations.FracdivWritesThePowerOfTen := by
  refine ⟨encodedAs_fracdiv, fun b ra s _ hsound => ?_⟩
  split
  next hv => exact exec_fracdiv_of_valid hv hsound
  next hv => exact (exec_fracdiv ..).trans (withSource_of_not_valid hv)

/-- Settles O48: the digits reach the divisor within half a digit of 1, where one unit of the last place may be lacking
and two may not. -/
theorem fracReachesItsDivisorInSixCases : Obligations.FracReachesItsDivisorInSixCases := by
  rintro b ra s _ _ _ - hv hsound rfl rfl rfl
  obtain ⟨y, hrun, hy⟩ := exec_frac_of_valid hv hsound
  have hf := (s.reg b ra).fraction_lt
  have hd := QD_le_nine (s.reg b ra).q
  refine ⟨y, _, hrun, exec_fracdiv_of_valid hv hsound, toNat_ofNat_of_le_pow le_rfl hd, ?_, ?_, ?_⟩ <;> rw [hy]
  · exact fracDigits_le hf hd
  · exact fracDigits_eq_pow_iff hf hd
  · exact (fracDigits_eq_pow_iff hf hd).trans (near_one_iff _ hf)

end

section
/-! Rounding to nearest, ties to even (43_conversion.md R163): a magnitude scaled to a significand of `p` bits is
rounded once, and stays between `2^(p-1)` and `2^p`. -/

namespace Sys2Proof.Machine

/-- `m` is an integer nearest to `r`, the even one of two (R163). -/
def IsNearestEven (r : ℚ) (m : Nat) : Prop := |r - m| ≤ 1 / 2 ∧ (|r - m| = 1 / 2 → m % 2 = 0)

/-- An integer is nearest to itself. -/
theorem isNearestEven_natCast (m : Nat) : IsNearestEven m m := by
  simp [IsNearestEven]

/-- Rounding to nearest does not leave an interval between integers. -/
theorem IsNearestEven.between {r : ℚ} {m lo hi : Nat} (h : IsNearestEven r m) (hlo : (lo : ℚ) ≤ r)
    (hhi : r ≤ hi) : lo ≤ m ∧ m ≤ hi := by
  obtain ⟨hbelow, habove⟩ := abs_le.mp h.1
  have hlow : (lo : ℚ) < m + 1 := by linarith
  have hhigh : (m : ℚ) < hi + 1 := by linarith
  exact ⟨Nat.lt_succ_iff.mp (by exact_mod_cast hlow), Nat.lt_succ_iff.mp (by exact_mod_cast hhigh)⟩

/-- Nearness to a quotient, as a comparison of integers. -/
theorem isNearestEven_div_iff {num u m : Nat} (hu : 0 < u) :
    IsNearestEven ((num : ℚ) / u) m ↔
      2 * ((num : Int) - m * u).natAbs ≤ u ∧ (2 * ((num : Int) - m * u).natAbs = u → m % 2 = 0) := by
  have hunit : (0 : ℚ) < u := Nat.cast_pos.mpr hu
  have hdist : |(num : ℚ) / u - m| = (((num : Int) - m * u).natAbs : ℚ) / u := by
    rw [div_sub' hunit.ne', abs_div, abs_of_pos hunit, Nat.cast_natAbs]
    push_cast
    rw [mul_comm]
  rw [IsNearestEven, hdist, div_le_div_iff₀ hunit two_pos, div_eq_div_iff hunit.ne' two_ne_zero, one_mul, mul_comm]
  norm_cast

/-- The floor is rounded up when more than half is left, or half is left and the floor is odd (R163). -/
theorem roundTiesEven_isNearestEven (num s : Nat) :
    IsNearestEven ((num : ℚ) / (2 ^ s : Nat)) (roundTiesEven num s) := by
  have hunit : 0 < 2 ^ s := by positivity
  have hleft : num % 2 ^ s < 2 ^ s := Nat.mod_lt num hunit
  have hdivmod : num / 2 ^ s * 2 ^ s + num % 2 ^ s = num := by rw [mul_comm, Nat.div_add_mod]
  rw [isNearestEven_div_iff hunit, roundTiesEven]
  split
  next hup =>
    have hceil : (num / 2 ^ s + 1) * 2 ^ s = num / 2 ^ s * 2 ^ s + 2 ^ s := by ring
    have hdist : ((num : Int) - (num / 2 ^ s + 1 : Nat) * (2 ^ s : Nat)).natAbs = 2 ^ s - num % 2 ^ s := by
      rw [← Nat.cast_mul, hceil]
      omega
    rw [hdist]
    omega
  next hdown =>
    have hdist : ((num : Int) - (num / 2 ^ s : Nat) * (2 ^ s : Nat)).natAbs = num % 2 ^ s := by
      rw [← Nat.cast_mul]
      omega
    rw [hdist]
    omega

/-- The significand of a magnitude before the carry is looked at: `mag * 2^(p-1-L)` rounded, with `L = floor(log2 mag)`
(R163). -/
def significand (p mag : Nat) : Nat :=
  if mag.log2 < p then mag * 2 ^ (p - 1 - mag.log2) else roundTiesEven mag (mag.log2 - (p - 1))

/-- The result of `fround` by its significand: a carry goes into the exponent (R163). -/
theorem fround_eq (F : FloatFormat) {raw : Int} (q : Nat) (hraw : raw ≠ 0) :
    fround F raw q =
      if significand F.significant raw.natAbs = 2 ^ F.significant then
        packFloat F (decide (raw < 0)) ((raw.natAbs.log2 : Int) - q + 1) (2 ^ (F.significant - 1))
      else packFloat F (decide (raw < 0)) ((raw.natAbs.log2 : Int) - q) (significand F.significant raw.natAbs) :=
  if_neg (Int.natAbs_ne_zero.mpr hraw)

theorem fround_zero (F : FloatFormat) (q : Nat) : fround F 0 q = 0 := rfl

/-- Both branches of the significand round the exactly scaled magnitude (R163). -/
theorem significand_isNearestEven {p mag : Nat} (hp : 0 < p) :
    IsNearestEven ((mag : ℚ) / 2 ^ ((mag.log2 : Int) - p + 1)) (significand p mag) := by
  rw [significand]
  split
  next hlt =>
    have hexact : (mag : ℚ) / 2 ^ ((mag.log2 : Int) - p + 1) = (mag * 2 ^ (p - 1 - mag.log2) : Nat) := by
      have hexp : (mag.log2 : Int) - p + 1 = -((p - 1 - mag.log2 : Nat) : Int) := by omega
      rw [hexp, zpow_neg, zpow_natCast, div_inv_eq_mul]
      push_cast
      rfl
    rw [hexact]
    exact isNearestEven_natCast _
  next hge =>
    have hexp : (mag.log2 : Int) - p + 1 = ((mag.log2 - (p - 1) : Nat) : Int) := by omega
    have hround := roundTiesEven_isNearestEven mag (mag.log2 - (p - 1))
    rw [hexp, zpow_natCast]
    exact_mod_cast hround

/-- The binary logarithm of a magnitude, over the rationals (R163). -/
theorem two_zpow_log2_le {mag : Nat} (hmag : mag ≠ 0) :
    (2 : ℚ) ^ (mag.log2 : Int) ≤ mag ∧ (mag : ℚ) < 2 ^ ((mag.log2 : Int) + 1) := by
  have hlow := Nat.log2_self_le hmag
  have hhigh := Nat.lt_log2_self (n := mag)
  exact ⟨by exact_mod_cast hlow, by exact_mod_cast hhigh⟩

/-- A significand has `p` bits, or carries (R163). -/
theorem significand_mem {p mag : Nat} (hp : 0 < p) (hmag : mag ≠ 0) :
    2 ^ (p - 1) ≤ significand p mag ∧ significand p mag ≤ 2 ^ p := by
  obtain ⟨hlow, hhigh⟩ := two_zpow_log2_le hmag
  have hscale : (0 : ℚ) < 2 ^ ((mag.log2 : Int) - p + 1) := by positivity
  refine (significand_isNearestEven hp).between ?_ ?_
  · have hexp : ((p - 1 : Nat) : Int) + ((mag.log2 : Int) - p + 1) = mag.log2 := by omega
    rwa [le_div_iff₀ hscale, Nat.cast_pow, ← zpow_natCast, Nat.cast_ofNat, ← zpow_add₀ two_ne_zero, hexp]
  · have hexp : (p : Int) + ((mag.log2 : Int) - p + 1) = mag.log2 + 1 := by omega
    rw [div_le_iff₀ hscale, Nat.cast_pow, ← zpow_natCast, Nat.cast_ofNat, ← zpow_add₀ two_ne_zero, hexp]
    exact hhigh.le

end Sys2Proof.Machine

end

section
/-! The bits of a float (43_conversion.md R163): sign, exponent and fraction are read back from the pattern they were
packed into. -/

namespace Sys2Proof

/-- A format of a sign bit, `w` bits of exponent and `k` bits of fraction, from the highest bit down (R163). -/
structure FloatFormat.HasLayout (F : FloatFormat) (w k : Nat) : Prop where
  significant : F.significant = k + 1
  width : F.width = w + k + 1

theorem binary64_hasLayout : binary64.HasLayout 11 52 := ⟨rfl, rfl⟩

theorem binary32_hasLayout : binary32.HasLayout 8 23 := ⟨rfl, rfl⟩

end Sys2Proof

namespace Sys2Proof.Machine

/-- The pattern of a sign, an exponent field and a fraction field as a number. -/
def patternNat (w k : Nat) (neg : Bool) (e f : Nat) : Nat := neg.toNat * 2 ^ (w + k) + e * 2 ^ k + f

section Fields

variable {w k e f : Nat} (neg : Bool) (he : e < 2 ^ w) (hf : f < 2 ^ k)

include he hf

/-- A pattern fits its width. -/
theorem patternNat_lt : patternNat w k neg e f < 2 ^ (w + k + 1) := by
  have hlow : (e + 1) * 2 ^ k ≤ 2 ^ w * 2 ^ k := Nat.mul_le_mul_right _ he
  have hsign : neg.toNat * 2 ^ (w + k) ≤ 1 * 2 ^ (w + k) := Nat.mul_le_mul_right _ (Bool.toNat_le neg)
  rw [← pow_add, add_mul] at hlow
  rw [patternNat, pow_succ]
  omega

/-- The fields of a pattern, read from a word of any width that holds it. -/
theorem fields_of_toNat_eq {n : Nat} {y : BitVec n} (hy : y.toNat = patternNat w k neg e f) :
    y.getLsbD (w + k) = neg ∧ (y.extractLsb' k w).toNat = e ∧ (y.extractLsb' 0 k).toNat = f := by
  have hfraction : y.toNat = 2 ^ k * (neg.toNat * 2 ^ w + e) + f := by rw [hy, patternNat]; ring
  have hupper : y.toNat / 2 ^ k = 2 ^ w * neg.toNat + e := by
    rw [hfraction, Nat.mul_add_div (by positivity), Nat.div_eq_of_lt hf, add_zero, mul_comm]
  have hsign : y.toNat / 2 ^ (w + k) = neg.toNat := by
    rw [add_comm, pow_add, ← Nat.div_div_eq_div_mul, hupper, Nat.mul_add_div (by positivity), Nat.div_eq_of_lt he,
      add_zero]
  refine ⟨?_, ?_, ?_⟩
  · rw [← BitVec.testBit_toNat, Nat.testBit_eq_decide_div_mod_eq, hsign]
    cases neg <;> rfl
  · rw [BitVec.extractLsb'_toNat, Nat.shiftRight_eq_div_pow, hupper, Nat.mul_add_mod, Nat.mod_eq_of_lt he]
  · rw [BitVec.extractLsb'_toNat, Nat.shiftRight_zero, hfraction, Nat.mul_add_mod, Nat.mod_eq_of_lt hf]

end Fields

section Pack

variable {F : FloatFormat} {w k : Nat} (hF : F.HasLayout w k)

include hF

/-- Packing writes the sign, the biased exponent, and the significand without its hidden bit (R163). -/
theorem packFloat_fields (neg : Bool) {e : Int} {m : Nat} (he : 0 ≤ e + F.bias) (hfit : e + F.bias < 2 ^ w)
    (hm : m - 2 ^ k < 2 ^ k) :
    (packFloat F neg e m).getLsbD (w + k) = neg ∧
      (((packFloat F neg e m).extractLsb' k w).toNat : Int) = e + F.bias ∧
      ((packFloat F neg e m).extractLsb' 0 k).toNat = m - 2 ^ k := by
  have hexp : (e + F.bias).toNat < 2 ^ w := by
    rw [Int.toNat_lt he]
    exact_mod_cast hfit
  have hpattern : (packFloat F neg e m).toNat = patternNat w k neg (e + F.bias).toNat (m - 2 ^ k) := by
    rw [packFloat, BitVec.toNat_ofNat, hF.significant, hF.width, ← Nat.mod_eq_of_lt (patternNat_lt neg hexp hm)]
    cases neg <;> simp [patternNat]
  obtain ⟨hsign, hexpField, hfracField⟩ := fields_of_toNat_eq neg hexp hm hpattern
  exact ⟨hsign, by rw [hexpField, Int.toNat_of_nonneg he], hfracField⟩

variable {raw : Int} {q : Nat} (hraw : raw ≠ 0) (hlow : 0 ≤ (raw.natAbs.log2 : Int) - q + F.bias)
  (hhigh : (raw.natAbs.log2 : Int) - q + 1 + F.bias < 2 ^ w)

include hraw hlow hhigh

/-- The fields of a rounded quotient: a carry leaves a zero fraction and the next exponent (R163). -/
theorem fround_fields :
    (fround F raw q).getLsbD (w + k) = decide (raw < 0) ∧
      if significand F.significant raw.natAbs = 2 ^ F.significant then
        (((fround F raw q).extractLsb' k w).toNat : Int) = (raw.natAbs.log2 : Int) - q + 1 + F.bias ∧
          ((fround F raw q).extractLsb' 0 k).toNat = 0
      else
        (((fround F raw q).extractLsb' k w).toNat : Int) = (raw.natAbs.log2 : Int) - q + F.bias ∧
          significand F.significant raw.natAbs =
            2 ^ (F.significant - 1) + ((fround F raw q).extractLsb' 0 k).toNat := by
  have hbits : F.significant - 1 = k := by rw [hF.significant, Nat.add_sub_cancel]
  have hcap : 2 ^ F.significant = 2 ^ k + 2 ^ k := by rw [hF.significant, pow_succ, mul_two]
  obtain ⟨hmin, hmax⟩ := significand_mem (p := F.significant) (hF.significant ▸ k.succ_pos)
    (Int.natAbs_ne_zero.mpr hraw)
  rw [hbits] at hmin ⊢
  rw [fround_eq F q hraw, hbits]
  split
  next hcarry =>
    obtain ⟨hsign, hexp, hfrac⟩ := packFloat_fields hF (decide (raw < 0)) (m := 2 ^ k)
      (e := (raw.natAbs.log2 : Int) - q + 1) (by omega) hhigh (by rw [Nat.sub_self]; positivity)
    exact ⟨hsign, hexp, by rw [hfrac, Nat.sub_self]⟩
  next hcarry =>
    obtain ⟨hsign, hexp, hfrac⟩ := packFloat_fields hF (decide (raw < 0)) hlow (by omega)
      (m := significand F.significant raw.natAbs) (by omega)
    exact ⟨hsign, hexp, by omega⟩

/-- The pattern `fround` gives for a nonzero quotient is that of the quotient rounded once (R163). -/
theorem fround_roundsTo :
    RoundsTo F.significant F.bias ((raw : ℚ) / 2 ^ q) ((fround F raw q).getLsbD (w + k))
      ((fround F raw q).extractLsb' k w).toNat ((fround F raw q).extractLsb' 0 k).toNat := by
  have habs : |(raw : ℚ) / 2 ^ q| = raw.natAbs / (2 : ℚ) ^ (q : Int) := by
    rw [abs_div, abs_of_pos (by positivity : (0 : ℚ) < 2 ^ q), Nat.cast_natAbs, Int.cast_abs, zpow_natCast]
  have hscale : |(raw : ℚ) / 2 ^ q| / 2 ^ ((raw.natAbs.log2 : Int) - q - F.significant + 1) =
      raw.natAbs / 2 ^ ((raw.natAbs.log2 : Int) - F.significant + 1) := by
    rw [habs, div_div, ← zpow_add₀ two_ne_zero]
    congr 2
    ring
  have hneg : decide (raw < 0) = decide ((raw : ℚ) / 2 ^ q < 0) := by
    rw [decide_eq_decide, div_lt_iff₀ (by positivity), zero_mul, Int.cast_lt_zero]
  obtain ⟨hlog, hlog'⟩ := two_zpow_log2_le (Int.natAbs_ne_zero.mpr hraw)
  obtain ⟨hnear, heven⟩ := significand_isNearestEven (p := F.significant) (mag := raw.natAbs)
    (hF.significant ▸ k.succ_pos)
  obtain ⟨hsign, hfields⟩ := fround_fields hF hraw hlow hhigh
  refine ⟨raw.natAbs.log2 - q, significand F.significant raw.natAbs, ?_, ?_, ?_, ?_, hsign.trans hneg, hfields⟩
  · rw [habs, zpow_sub₀ two_ne_zero]
    gcongr
  · rw [habs, sub_add_eq_add_sub, zpow_sub₀ two_ne_zero]
    gcongr
  · rwa [hscale]
  · rwa [hscale]

end Pack

end Sys2Proof.Machine

end

section
/-! `TOF64` and `TOF32` (43_conversion.md R161 to R163): the exponents of the numbers a register can hold lie between
-63 and 64, well inside both formats. -/

namespace Sys2Proof.Machine

/-- The rule of `TOF64` (R161). -/
theorem exec_tof64 (b : Bank) (ra : RegIndex) (s : State) :
    exec (.tof64 b ra) s = withSource s b ra fun r => .next (s.afterY (fround binary64 r.raw.toInt r.q.toNat)) := rfl

/-- The rule of `TOF32` (R162). -/
theorem exec_tof32 (b : Bank) (ra : RegIndex) (s : State) :
    exec (.tof32 b ra) s = withSource s b ra fun r =>
      .next (s.afterY ((fround binary32 r.raw.toInt r.q.toNat).setWidth 64)) := rfl

/-- Zero is all zero bits, at any precision (R163). -/
theorem fround_raw_zero {n : Nat} {v : BitVec n} (F : FloatFormat) (q : Nat) (hv : v = 0) : fround F v.toInt q = 0 := by
  have hint : v.toInt = 0 := by simp [hv]
  rw [hint, fround_zero]

/-- Zeros stand above a 32-bit pattern in `Y` (R156). -/
theorem extractLsb'_upper_setWidth (v : BitVec 32) : (v.setWidth 64).extractLsb' 32 32 = 0 := by
  apply BitVec.eq_of_toNat_eq
  rw [BitVec.extractLsb'_toNat, BitVec.toNat_setWidth_of_le (by decide), Nat.shiftRight_eq_div_pow,
    Nat.div_eq_of_lt v.isLt]
  rfl

/-- A raw value has at most 64 bits. -/
theorem log2_natAbs_toInt_lt {b : Bank} (v : BitVec b.width) (hv : v.toInt ≠ 0) : v.toInt.natAbs.log2 < 64 := by
  have hmag : |v.toInt| ≤ 2 ^ (b.width - 1) := abs_le_of_inRange (inRange_toInt v)
  have hwidth : (2 : Int) ^ (b.width - 1) < 2 ^ 64 := by cases b <;> decide
  rw [Int.abs_eq_natAbs] at hmag
  rw [Nat.log2_lt (Int.natAbs_ne_zero.mpr hv)]
  exact_mod_cast hmag.trans_lt hwidth

/-- A nonzero number of a register is rounded once to a format whose exponents reach from -63 to 64 (R163). -/
theorem fround_number_roundsTo {F : FloatFormat} {w k : Nat} (hF : F.HasLayout w k) (hlow : 63 ≤ F.bias)
    (hhigh : 64 + F.bias < 2 ^ w) {b : Bank} (x : NumReg b.width) (hraw : x.raw ≠ 0) :
    RoundsTo F.significant F.bias x.number ((fround F x.raw.toInt x.q.toNat).getLsbD (w + k))
      ((fround F x.raw.toInt x.q.toNat).extractLsb' k w).toNat
      ((fround F x.raw.toInt x.q.toNat).extractLsb' 0 k).toNat := by
  have hint : x.raw.toInt ≠ 0 := fun h => hraw (BitVec.eq_of_toInt_eq (by simpa using h))
  have hlog := log2_natAbs_toInt_lt x.raw hint
  have hq : x.q.toNat < 64 := x.q.isLt
  have hhigh' : (64 : Int) + F.bias < 2 ^ w := by exact_mod_cast hhigh
  exact fround_roundsTo hF hint (by omega) (by omega)

end Sys2Proof.Machine

open Sys2Proof Sys2Proof.Machine

/-- Settles O50: zero is the zero pattern, and every other number is rounded once. -/
theorem tof64WritesTheNearestBinary64 : Obligations.Tof64WritesTheNearestBinary64 := by
  refine ⟨encodedAs_tof64, fun b ra s _ _ => ?_⟩
  split
  next hv =>
    refine ⟨_, (exec_tof64 ..).trans (withSource_of_valid hv), ?_⟩
    split
    next hzero => exact fround_raw_zero binary64 _ hzero
    next hraw => exact fround_number_roundsTo binary64_hasLayout (by decide) (by decide) _ hraw
  next hv => exact (exec_tof64 ..).trans (withSource_of_not_valid hv)

/-- Settles O51: as `TOF64`, and widening the pattern leaves its fields where they are. -/
theorem tof32WritesTheNearestBinary32 : Obligations.Tof32WritesTheNearestBinary32 := by
  refine ⟨encodedAs_tof32, fun b ra s _ _ => ?_⟩
  split
  next hv =>
    refine ⟨_, (exec_tof32 ..).trans (withSource_of_valid hv), extractLsb'_upper_setWidth _, ?_⟩
    split
    next hzero =>
      rw [fround_raw_zero binary32 _ hzero]
      rfl
    next hraw =>
      have hround := fround_number_roundsTo binary32_hasLayout (by decide) (by decide) _ hraw
      have hsign (v : BitVec 32) : (v.setWidth 64).getLsbD 31 = v.getLsbD 31 := by simp
      rw [BitVec.extractLsb'_setWidth_of_le (by decide), BitVec.extractLsb'_setWidth_of_le (by decide), hsign]
      exact hround
  next hv => exact (exec_tof32 ..).trans (withSource_of_not_valid hv)

end

section
/-! The words of the system and copy commands (30_encoding.md R69, R70; 44_system.md R181 to R183). -/

namespace Sys2Proof.Machine

/-- The words of `NOP` (R181). -/
theorem encodedAs_nop : EncodedAs 0x01 .Z (fun _ => .nop) :=
  encodedAs_of_decodeFields fun f hop => by cases f; cases hop; rfl

/-- The words of `CLROVF` (R182). -/
theorem encodedAs_clrovf : EncodedAs 0x02 .Z (fun _ => .clrovf) :=
  encodedAs_of_decodeFields fun f hop => by cases f; cases hop; rfl

/-- The words of `MOV` (R183). -/
theorem encodedAs_mov : EncodedAs 0x03 .M (fun f => .mov f.bank f.rd f.ra) :=
  encodedAs_of_decodeFields fun f hop => by cases f; cases hop; rfl

end Sys2Proof.Machine

end

section
/-! What a command can do (00_scope.md R14, 60_exceptions.md R196): every command answers a next state, and that state is
reached in one of five ways. An effect says which commands can have it, so that a rule over all commands is a
case split on five effects and not on 22 commands. -/

namespace Sys2Proof.Machine

/-- The ways a command takes the FXU from one state to the next. -/
inductive Effect (i : Instr) (s : State) : State → Prop where
  /-- `NOP` (R181). -/
  | unchanged : i = .nop → Effect i s s
  /-- `CLROVF` (R182). -/
  | overflowCleared : i = .clrovf → Effect i s s.clearOverflow
  /-- Fault entry (R196). -/
  | raised (c : Cause) : Effect i s (s.raise c)
  /-- A result in `Y` (R28). -/
  | resultWritten (v : PortWord) : i.writesY = true → Effect i s (s.writeY v)
  /-- A number in the destination register (R25), with overflow only where the command checks for it (R30). -/
  | stored {t : State} {b : Bank} {rd : RegIndex} {raw : BitVec b.width} {p : Precision} {overflowed : Prop} :
    i.destination = some (b, rd) → (overflowed → i.checksOverflow = true) → s.StoredIn t b rd raw p overflowed →
      Effect i s t

/-- The answer is a next state with one of the effects of the command. -/
def HasEffect (i : Instr) (s : State) (r : Result) : Prop := ∃ t, r = .next t ∧ Effect i s t

section Rules

variable {i : Instr} {s : State} {b : Bank} {rd : RegIndex}

theorem hasEffect_raise (c : Cause) : HasEffect i s (.next (s.raise c)) := ⟨_, rfl, .raised c⟩

theorem hasEffect_writeY (hY : i.writesY = true) (v : PortWord) : HasEffect i s (.next (s.writeY v)) :=
  ⟨_, rfl, .resultWritten v hY⟩

theorem hasEffect_writeReg (hrd : i.destination = some (b, rd)) (raw : BitVec b.width) (p : Precision) :
    HasEffect i s (.next (s.writeReg b rd raw p)) :=
  ⟨_, rfl, .stored hrd False.elim (s.writeReg_storedIn b rd raw p)⟩

theorem hasEffect_storeChecked (hrd : i.destination = some (b, rd)) (hchecks : i.checksOverflow = true) (z : Int)
    (p : Precision) : HasEffect i s (.next (s.storeChecked b rd z p)) :=
  ⟨_, rfl, .stored hrd (fun _ => hchecks) (s.storeChecked_storedIn b rd z p)⟩

/-- The precision check adds a fault to the effects of the rule behind it (R75). -/
theorem hasEffect_withPrecision {q : Precision} {rule : Result} (h : HasEffect i s rule) :
    HasEffect i s (withPrecision s b q rule) := by
  rcases withPrecision_eq s b q rule with ⟨_, hrun⟩ | ⟨_, hfault⟩
  · rwa [hrun]
  · rw [hfault]
    exact hasEffect_raise _

/-- Reading a source adds a fault to the effects of the rule behind it (R24). -/
theorem hasEffect_withSource {ra : RegIndex} {rule : NumReg b.width → Result} (h : ∀ x, HasEffect i s (rule x)) :
    HasEffect i s (withSource s b ra rule) := by
  rcases withSource_eq s b ra rule with ⟨_, hrun⟩ | ⟨_, hfault⟩
  · rw [hrun]
    exact h _
  · rw [hfault]
    exact hasEffect_raise _

/-- Aligning two sources is reading the one and then the other (R117). -/
theorem hasEffect_withAligned {ra rb : RegIndex} {rule : Aligned → Result} (h : ∀ v, HasEffect i s (rule v)) :
    HasEffect i s (withAligned s b ra rb rule) :=
  hasEffect_withSource fun _ => hasEffect_withSource fun _ => h _

/-- A zero divisor adds a fault to the effects of the rule behind the test (R114, R116). -/
theorem hasEffect_unlessZero {z : Int} {rule : Result} (h : HasEffect i s rule) :
    HasEffect i s (if z = 0 then .next (s.raise .divideByZero) else rule) := by
  split
  next => exact hasEffect_raise _
  next => exact h

/-- `FROMFRAC` stores after three overflow checks more (R93). -/
theorem exec_fromfrac_hasEffect (q : Precision) :
    HasEffect (.fromfrac b rd q) s (exec (.fromfrac b rd q) s) :=
  hasEffect_withPrecision <| hasEffect_unlessZero
    ⟨_, rfl, .stored rfl (fun _ => rfl)
      (State.storeChecked_storedIn _ b rd _ q).of_checkOverflow.of_checkOverflow.of_checkOverflow⟩

/-- `FROMF64` stores without a check, or faults on the value (R94, R199). -/
theorem exec_fromf64_hasEffect (q : Precision) :
    HasEffect (.fromf64 b rd q) s (exec (.fromf64 b rd q) s) := by
  refine hasEffect_withPrecision ?_
  split
  next => exact hasEffect_raise _
  next => exact hasEffect_raise _
  next =>
    dsimp only
    split
    next => exact hasEffect_writeReg rfl _ _
    next => exact hasEffect_raise _

end Rules

/-- What a command can do, for every command. -/
theorem exec_hasEffect (i : Instr) (s : State) : HasEffect i s (exec i s) := by
  cases i with
  | nop => exact ⟨_, rfl, .unchanged rfl⟩
  | clrovf => exact ⟨_, rfl, .overflowCleared rfl⟩
  | mov => exact hasEffect_withSource fun _ => hasEffect_writeReg rfl _ _
  | fromint => exact hasEffect_withPrecision (hasEffect_storeChecked rfl rfl _ _)
  | fromfrac => exact exec_fromfrac_hasEffect _
  | fromf64 => exact exec_fromf64_hasEffect _
  | add | sub | mul => exact hasEffect_withAligned fun _ => hasEffect_storeChecked rfl rfl _ _
  | div => exact hasEffect_withAligned fun _ => hasEffect_unlessZero (hasEffect_storeChecked rfl rfl _ _)
  | rem => exact hasEffect_withAligned fun _ => hasEffect_unlessZero (hasEffect_writeReg rfl _ _)
  | eq | ne | lt | gt | le | ge => exact hasEffect_withAligned fun _ => hasEffect_writeY rfl _
  | toint | frac | fracdiv => exact hasEffect_withSource fun _ => hasEffect_writeY rfl _
  -- Through the rule's own equation, so that the kernel does not unfold the rounding to see which value is written.
  | tof32 =>
    rw [exec_tof32]
    exact hasEffect_withSource fun _ => hasEffect_writeY rfl _
  | tof64 =>
    rw [exec_tof64]
    exact hasEffect_withSource fun _ => hasEffect_writeY rfl _

/-- The next state of a command is one of its effects. -/
theorem effect_of_exec_eq {i : Instr} {s t : State} (h : exec i s = .next t) : Effect i s t := by
  obtain ⟨t', hexec, heffect⟩ := exec_hasEffect i s
  obtain rfl : t' = t := by simpa [hexec] using h
  exact heffect

/-- Every effect but that of `CLROVF` keeps a set overflow flag (R30). -/
theorem Effect.ovf_of_ne_clrovf {i : Instr} {s t : State} (h : Effect i s t) (hi : i ≠ .clrovf)
    (hovf : s.status.ovf = true) : t.status.ovf = true := by
  cases h with
  | unchanged _ => exact hovf
  | overflowCleared hclr => exact absurd hclr hi
  | raised c => exact hovf
  | resultWritten v _ => exact hovf
  | stored _ _ hstored => exact hstored.overflowFlag.mpr (.inl hovf)

end Sys2Proof.Machine

end

section
/-! `NOP`, `CLROVF` and `MOV` (44_system.md R181 to R183), and a command event in the fault state (60_exceptions.md
R197). -/

namespace Sys2Proof.Machine

/-- In the fault state a command event is taken and nothing else changes (R197). -/
theorem step_of_command_in_fault_state {s : State} {c : Command} {rest : List Event} (hfault : s.status.fault = true)
    (hev : s.events = .command c :: rest) : step s = .next { s with events := rest } := by
  rcases step_cases s with ⟨hidle, _⟩ | ⟨_, hreset, _⟩ | ⟨c', rest', hcmd, _, hstep⟩ | ⟨_, _, _, hrun, _⟩
  · simp [hev] at hidle
  · simp [hev] at hreset
  · obtain ⟨rfl, rfl⟩ : c = c' ∧ rest = rest' := by simpa [hev] using hcmd
    exact hstep
  · simp [hfault] at hrun

/-- The rule of `NOP` (R181). -/
theorem exec_nop (s : State) : exec .nop s = .next s := rfl

/-- The rule of `CLROVF` (R182). -/
theorem exec_clrovf (s : State) : exec .clrovf s = .next { s with status := { s.status with ovf := false } } := rfl

/-- The rule of `MOV` (R183). -/
theorem exec_mov (b : Bank) (rd ra : RegIndex) (s : State) :
    exec (.mov b rd ra) s = withSource s b ra fun r => .next (s.writeReg b rd r.raw r.q) := rfl

end Sys2Proof.Machine

open Sys2Proof Sys2Proof.Machine

/-- Settles O25: a constructed source is written as it stands, with no overflow check ahead of the write. -/
theorem movCopiesTheNumber : Obligations.MovCopiesTheNumber := by
  refine ⟨encodedAs_mov, fun b rd ra s _ => ?_⟩
  split
  next hv => exact ⟨_, (exec_mov ..).trans (withSource_of_valid hv), s.writeReg_storedIn b rd _ _⟩
  next hv => exact (exec_mov ..).trans (withSource_of_not_valid hv)

/-- Settles O23: the rule is the identity, and the fault state ignores the word as it does every other. -/
theorem nopChangesNothing : Obligations.NopChangesNothing := by
  have hword : encode .nop = 0x04000000 := by decide
  exact ⟨hword, encodedAs_nop, exec_nop, fun _ _ _ hfault _ hev => step_of_command_in_fault_state hfault hev⟩

/-- Settles O24: every effect a command can have keeps a set flag, but for the one that `CLROVF` alone has. -/
theorem clrovfClearsOnlyTheOverflowFlag : Obligations.ClrovfClearsOnlyTheOverflowFlag := by
  have hword : encode .clrovf = 0x08000000 := by decide
  refine ⟨hword, encodedAs_clrovf, fun s _ => exec_clrovf s, fun i s t hexec hset hclear => ?_,
    fun _ _ _ hfault _ hev => step_of_command_in_fault_state hfault hev⟩
  by_contra hi
  have hkept : t.status.ovf = true := (effect_of_exec_eq hexec).ovf_of_ne_clrovf hi hset
  simp [hclear] at hkept

end

section
/-! Events and the fault state (30_encoding.md R74, 60_exceptions.md R196, R197, R202): a command performed out of the
fault state enters it by fault entry alone, one delivered in the fault state is ignored, and `Reset` leaves it. -/

namespace Sys2Proof.Machine

/-- The codes of the five faults (R191). -/
theorem Cause.code_bounds (c : Cause) : 1 ≤ c.code.toNat ∧ c.code.toNat ≤ 5 := by
  cases c <;> decide

/-- Out of the fault state a legal word runs its command (R13, R74). -/
theorem step_eq_exec {s : State} {c : Command} {rest : List Event} {i : Instr} (hrun : s.Running)
    (hev : s.events = .command c :: rest) (hdec : decode c.word = .ok i) : step s = exec i (s.deliver c rest) := by
  rw [step_eq_performCommand hrun hev]
  rcases performCommand_cases (s.deliver c rest) with ⟨j, hj, hperf⟩ | ⟨r, hr, _⟩
  · obtain rfl : i = j := by simpa [hdec] using hj
    exact hperf
  · simp [hdec] at hr

/-- Of all the effects a command can have, only fault entry sets `FAULT` (R31). -/
theorem Effect.eq_raise_of_fault {i : Instr} {s t : State} (h : Effect i s t) (hrun : s.Running)
    (hfault : t.status.fault = true) : ∃ c, t = s.raise c := by
  cases h with
  | raised c => exact ⟨c, rfl⟩
  | unchanged _ => simp [hrun] at hfault
  | overflowCleared _ => simp [hrun] at hfault
  | resultWritten v _ => simp [hrun] at hfault
  | stored _ _ hstored =>
    obtain ⟨hkept, -, -⟩ := hstored.otherStatus
    simp [hkept, hrun] at hfault

/-- What performing a command leaves in the fault state is fault entry and nothing else (R196). -/
theorem eq_raise_of_performCommand_faults {s t : State} (hrun : s.Running) (hperf : performCommand s = .next t)
    (hfault : t.status.fault = true) : ∃ c, t = s.raise c := by
  rcases performCommand_cases s with ⟨i, _, hexec⟩ | ⟨_, _, hraise⟩
  · exact (effect_of_exec_eq (hexec.symm.trans hperf)).eq_raise_of_fault hrun hfault
  · obtain rfl : s.raise .illegalCommand = t := by simpa [hraise] using hperf
    exact ⟨_, rfl⟩

end Sys2Proof.Machine

open Sys2Proof Sys2Proof.Machine

/-- Settles O7: a command event in the fault state is discarded. -/
theorem faultStateIgnoresEveryCommand : Obligations.FaultStateIgnoresEveryCommand :=
  fun _ _ _ => step_of_command_in_fault_state

/-- Settles O9: from the fault state a step idles, discards a command or resets, and only `Reset` writes `FAULT`. -/
theorem onlyResetLeavesTheFaultState : Obligations.OnlyResetLeavesTheFaultState := by
  intro s t hfault hstep
  rcases step_cases s with ⟨hev, hs⟩ | ⟨rest, hev, hs⟩ | ⟨c, rest, hev, _, hs⟩ | ⟨_, _, _, hrun, _⟩
  · obtain rfl : s = t := by simpa [hs] using hstep
    simp [hfault, hev]
  · obtain rfl : s.takeReset rest = t := by simpa [hs] using hstep
    simp [hev, Status.reset, NumReg.unconstructed]
  · obtain rfl : s.discard rest = t := by simpa [hs] using hstep
    simp [hfault, hev]
  · simp [hfault] at hrun

/-- Settles O21: a step into the fault state performed a command, and of its effects only fault entry sets `FAULT`. -/
theorem faultsArePrecise : Obligations.FaultsArePrecise := by
  intro s t c rest hrun hev hstep hfault
  have hperf : performCommand (s.deliver c rest) = .next t := (step_eq_performCommand hrun hev).symm.trans hstep
  obtain ⟨cause, rfl⟩ := eq_raise_of_performCommand_faults (s := s.deliver c rest) hrun hperf hfault
  obtain ⟨hlow, hhigh⟩ := cause.code_bounds
  exact ⟨cause.code, hlow, hhigh, rfl, rfl⟩

end

section
/-! The order of checks (60_exceptions.md R191, R195): the precision of a construction first, then the sources, and
behind both the one condition that a command's own rule tests. One theorem for each of the three, over all commands. -/

namespace Sys2Proof.Machine

/-- The rule of `ADD` (R112). -/
theorem exec_add (b : Bank) (rd ra rb : RegIndex) (s : State) :
    exec (.add b rd ra rb) s = withAligned s b ra rb fun v => .next (s.storeChecked b rd (v.a + v.b) v.qc) := rfl

/-- The rule of `SUB` (R113). -/
theorem exec_sub (b : Bank) (rd ra rb : RegIndex) (s : State) :
    exec (.sub b rd ra rb) s = withAligned s b ra rb fun v => .next (s.storeChecked b rd (v.a - v.b) v.qc) := rfl

/-- The rule of `MUL` (R115). -/
theorem exec_mul (b : Bank) (rd ra rb : RegIndex) (s : State) :
    exec (.mul b rd ra rb) s =
      withAligned s b ra rb fun v => .next (s.storeChecked b rd (asr (v.a * v.b) v.qc.toNat) v.qc) := rfl

/-- The answer is the fault of the code on the state `s`, or, with no code, a next state out of the fault state. -/
def FaultsAs (s : State) : Option (BitVec 3) → Result → Prop
  | some code, r => r = .next (s.afterFault code)
  | none, r => ∃ t, r = .next t ∧ t.status.fault = false

section Rules

variable {s : State} {b : Bank} {rd ra rb : RegIndex} {q : Precision}

/-- A result in `Y` raises nothing (R28). -/
theorem faultsAs_none_afterY (hrun : s.Running) (v : PortWord) : FaultsAs s none (.next (s.afterY v)) :=
  ⟨_, rfl, hrun⟩

/-- A stored number raises nothing, overflow or not (R10). -/
theorem State.StoredIn.faultsAs_none {t : State} {raw : BitVec b.width} {overflowed : Prop}
    (h : s.StoredIn t b rd raw q overflowed) (hrun : s.Running) : FaultsAs s none (.next t) :=
  have ⟨hkept, _, _⟩ := h.otherStatus
  ⟨_, rfl, hkept.trans hrun⟩

/-- A constructed source raises what the rule behind it raises (R24). -/
theorem faultsAs_withSource {rule : NumReg b.width → Result} {code : Option (BitVec 3)}
    (hsrc : ∀ x ∈ [(b, ra)], (s.reg x.1 x.2).v = true) (h : ∀ x, FaultsAs s code (rule x)) :
    FaultsAs s code (withSource s b ra rule) := by
  rw [withSource_of_valid (hsrc (b, ra) (by simp))]
  exact h _

/-- Two sources are constructed when all of the list are. -/
theorem valid_of_forall_sources (hsrc : ∀ x ∈ [(b, ra), (b, rb)], (s.reg x.1 x.2).v = true) :
    (s.reg b ra).v = true ∧ (s.reg b rb).v = true := by
  simpa using hsrc

/-- Two constructed sources raise what the rule behind them raises (R117, R140). -/
theorem faultsAs_withAligned {rule : Aligned → Result} {code : Option (BitVec 3)}
    (hsrc : ∀ x ∈ [(b, ra), (b, rb)], (s.reg x.1 x.2).v = true) (h : ∀ v, FaultsAs s code (rule v)) :
    FaultsAs s code (withAligned s b ra rb rule) := by
  rw [withAligned_of_valid (valid_of_forall_sources hsrc)]
  exact h _

/-- A command with one source raises `Unconstructed` when that source is (R192). -/
theorem faultsAs_withSource_of_unconstructed {rule : NumReg b.width → Result}
    (h : ∃ x ∈ [(b, ra)], (s.reg x.1 x.2).v = false) : FaultsAs s (some 3) (withSource s b ra rule) :=
  withSource_of_not_valid (by simpa using h)

/-- A command with two sources raises `Unconstructed` when either source is (R192). -/
theorem faultsAs_withAligned_of_unconstructed {rule : Aligned → Result}
    (h : ∃ x ∈ [(b, ra), (b, rb)], (s.reg x.1 x.2).v = false) :
    FaultsAs s (some 3) (withAligned s b ra rb rule) := by
  refine withAligned_of_not_valid fun ⟨ha, hb⟩ => ?_
  simp [ha, hb] at h

/-- `FROMFRAC` tests its denominator (R93). -/
theorem exec_fromfrac_faultsAs (hrun : s.Running) (hq : q.toNat ≤ b.width - 1) :
    FaultsAs s (if lowInteger b s.port.in2 = 0 then some 4 else none) (exec (.fromfrac b rd q) s) := by
  split
  next hfd => exact exec_fromfrac_of_zero hq hfd
  next hfd =>
    rw [exec_fromfrac_of_ne_zero hq hfd rfl rfl rfl rfl]
    exact (State.storeChecked_storedIn _ b rd _ q).of_checkOverflow.of_checkOverflow.of_checkOverflow.faultsAs_none hrun

/-- `FROMF64` tests the range of the number a pattern stands for (R94, R199). -/
theorem exec_fromf64_faultsAs_of_some (hrun : s.Running) (hq : q.toNat ≤ b.width - 1) {d : ℚ}
    (hnum : float64Number s.port.in0 = some d) :
    FaultsAs s (if InRange b.width (truncateRational (d * 2 ^ q.toNat)) then none else some 5)
      (exec (.fromf64 b rd q) s) := by
  rw [exec_fromf64_of_some hq hnum]
  split
  next => exact (s.writeReg_storedIn b rd _ q).faultsAs_none hrun
  next => rfl

/-- `DIV` and `REM` test the aligned divisor (R121). -/
theorem exec_div_rem_faultsAs (hrun : s.Running) (hsrc : ∀ x ∈ [(b, ra), (b, rb)], (s.reg x.1 x.2).v = true) :
    FaultsAs s (if alignedTo (s.reg b rb) (commonPrecision (s.reg b ra) (s.reg b rb)) = 0 then some 4 else none)
      (exec (.div b rd ra rb) s) ∧
    FaultsAs s (if alignedTo (s.reg b rb) (commonPrecision (s.reg b ra) (s.reg b rb)) = 0 then some 4 else none)
      (exec (.rem b rd ra rb) s) := by
  have hv := valid_of_forall_sources hsrc
  split
  next hzero => exact div_rem_fault_of_aligned_zero hv hzero
  next hne => exact div_rem_complete_of_aligned_ne_zero hrun hv hne

end Rules

/-- The first check: a precision out of range raises `PrecisionOutOfRange`, code 2 (R75, R198). -/
theorem exec_faultsAs_of_illFormed {i : Instr} (s : State) (h : i.wellFormed = false) :
    FaultsAs s (some 2) (exec i s) := by
  cases i with
  | fromint b rd q => exact exec_fromint_of_gt (Nat.not_le.mp (of_decide_eq_false h))
  | fromfrac b rd q => exact exec_fromfrac_of_gt (Nat.not_le.mp (of_decide_eq_false h))
  | fromf64 b rd q => exact exec_fromf64_of_gt (Nat.not_le.mp (of_decide_eq_false h))
  | _ => cases h

/-- The second check: an unconstructed source raises `Unconstructed`, code 3 (R192). -/
theorem exec_faultsAs_of_unconstructed {i : Instr} {s : State} (h : ∃ x ∈ i.sources, (s.reg x.1 x.2).v = false) :
    FaultsAs s (some 3) (exec i s) := by
  cases i with
  | mov | toint | frac | fracdiv | tof32 | tof64 =>
    simp only [exec_mov, exec_toint, exec_frac, exec_fracdiv, exec_tof32, exec_tof64]
    exact faultsAs_withSource_of_unconstructed h
  | add | sub | mul | div | rem =>
    simp only [exec_add, exec_sub, exec_mul, exec_div, exec_rem]
    exact faultsAs_withAligned_of_unconstructed h
  | eq | ne | lt | gt | le | ge =>
    simp only [exec_eq, exec_ne, exec_lt, exec_gt, exec_le, exec_ge]
    exact faultsAs_withAligned_of_unconstructed h
  | nop | clrovf | fromint | fromfrac | fromf64 => simp [Instr.sources] at h

/-- The third check: with a precision of the bank and all sources constructed, the condition of the command's own rule
decides (R93, R94, R121). -/
theorem exec_faultsAs_of_ready {i : Instr} {s : State} (hrun : s.Running) (hwf : i.wellFormed = true)
    (hsrc : ∀ x ∈ i.sources, (s.reg x.1 x.2).v = true) : FaultsAs s (expectedFault i s) (exec i s) := by
  have hprecision : ¬ i.wellFormed = false := by simp [hwf]
  have hconstructed : ¬ ∃ x ∈ i.sources, (s.reg x.1 x.2).v = false := by simpa using hsrc
  rw [expectedFault, if_neg hprecision, if_neg hconstructed]
  cases i with
  | nop | clrovf => exact ⟨_, rfl, hrun⟩
  | mov b rd ra => exact faultsAs_withSource hsrc fun _ => (s.writeReg_storedIn b rd _ _).faultsAs_none hrun
  | fromint b rd q =>
    rw [exec_fromint_of_le (of_decide_eq_true hwf)]
    exact (s.storeChecked_storedIn b rd _ q).faultsAs_none hrun
  | fromfrac => exact exec_fromfrac_faultsAs hrun (of_decide_eq_true hwf)
  | fromf64 =>
    dsimp only
    split
    next hnum => exact exec_fromf64_of_none (of_decide_eq_true hwf) hnum
    next hnum => exact exec_fromf64_faultsAs_of_some hrun (of_decide_eq_true hwf) hnum
  | add b rd | sub b rd | mul b rd =>
    exact faultsAs_withAligned hsrc fun _ => (s.storeChecked_storedIn b rd _ _).faultsAs_none hrun
  | div => exact (exec_div_rem_faultsAs hrun hsrc).1
  | rem => exact (exec_div_rem_faultsAs hrun hsrc).2
  | eq | ne | lt | gt | le | ge => exact faultsAs_withAligned hsrc fun _ => faultsAs_none_afterY hrun _
  | toint | frac | fracdiv | tof32 | tof64 =>
    simp only [exec_toint, exec_frac, exec_fracdiv, exec_tof32, exec_tof64]
    exact faultsAs_withSource hsrc fun _ => faultsAs_none_afterY hrun _

/-- A command raises the fault whose condition holds first, and none otherwise (R191, R195). -/
theorem exec_faultsAs_expectedFault (i : Instr) {s : State} (hrun : s.Running) :
    FaultsAs s (expectedFault i s) (exec i s) := by
  by_cases hwf : i.wellFormed = false
  · rw [expectedFault, if_pos hwf]
    exact exec_faultsAs_of_illFormed s hwf
  · by_cases hsrc : ∃ x ∈ i.sources, (s.reg x.1 x.2).v = false
    · rw [expectedFault, if_neg hwf, if_pos hsrc]
      exact exec_faultsAs_of_unconstructed hsrc
    · exact exec_faultsAs_of_ready hrun (by simpa using hwf) (by simpa using hsrc)

/-- An expected fault is raised, with its entry and nothing else (R196). -/
theorem exec_of_expectedFault_some {i : Instr} {s : State} {code : BitVec 3} (hrun : s.Running)
    (h : expectedFault i s = some code) : exec i s = .next (s.afterFault code) := by
  have hfaults := exec_faultsAs_expectedFault i hrun
  rwa [h] at hfaults

/-- Where no fault is expected the command goes on without one (R195). -/
theorem exec_of_expectedFault_none {i : Instr} {s : State} (hrun : s.Running) (h : expectedFault i s = none) :
    ∃ t, exec i s = .next t ∧ t.status.fault = false := by
  have hcompletes := exec_faultsAs_expectedFault i hrun
  rwa [h] at hcompletes

end Sys2Proof.Machine

open Sys2Proof Sys2Proof.Machine

/-- Settles O22: the fault state comes before decoding, decoding before the command, and the command's checks follow in
their order. -/
theorem faultsAreRaisedInTheOrderOfChecks : Obligations.FaultsAreRaisedInTheOrderOfChecks := by
  rintro s _ c rest hev rfl
  obtain ⟨-, -, hillegal⟩ := illegalWordFaults
  refine ⟨fun hfault => step_of_command_in_fault_state hfault hev, fun hrun => hillegal s c rest hrun hev,
    fun hrun hlegal => ?_⟩
  cases hdec : decode c.word with
  | error r => exact absurd ((illegalWord_iff_decode_rejects c.word).mpr ⟨r, hdec⟩) hlegal
  | ok i =>
    refine ⟨i, rfl, ?_⟩
    rw [step_eq_exec hrun hev hdec]
    split
    next hcode => exact exec_of_expectedFault_some (s := s.deliver c rest) hrun hcode
    next hnone => exact exec_of_expectedFault_none (s := s.deliver c rest) hrun hnone

end

section
/-! Decoding and encoding (30_encoding.md R66 to R70, R74): a word is its fields, and both directions of the round trip
are facts about the fields of a command. -/

namespace Sys2Proof

/-- The bit `W` is read as a bank and written back (R21). -/
theorem Fields.bit_bank (f : Fields) : f.bank.bit = f.w := by
  have hbit : ∀ w : BitVec 1, (if w = 0#1 then Bank.W else Bank.L).bit = w := by decide
  exact hbit f.w

/-- The fields of a command are the fields its own row of the decoder accepts (R69, R70). -/
theorem decodeFields_encodeFields (i : Instr) : decodeFields (encodeFields i) = .ok i := by
  cases i <;> simp [decodeFields, encodeFields, Fields.accept, Format.unusedZero]

/-- A word accepted as a command has nothing in the fields its format does not use (R70). -/
theorem Fields.accept_eq_ok_iff (f : Fields) (fmt : Format) (i j : Instr) :
    f.accept fmt i = .ok j ↔ f.z = 0#10 ∧ fmt.unusedZero f = true ∧ i = j := by
  rcases f.accept_eq fmt i with ⟨hz, hunused, hok⟩ | ⟨hbad, r, hrej⟩
  · simp [hz, hunused, hok]
  · simp only [hrej, reduceCtorEq, false_iff]
    exact fun ⟨hz, hunused, _⟩ => hbad ⟨hz, hunused⟩

/-- Fields that decode are the fields of the command they decode to: the used ones are the command's, the others are
zero (R67, R70). -/
theorem encodeFields_of_decodeFields {f : Fields} {i : Instr} (h : decodeFields f = .ok i) : encodeFields i = f := by
  unfold decodeFields at h
  split at h
  case h_23 => cases h
  all_goals
    next hop =>
      obtain ⟨hz, hunused, rfl⟩ := (f.accept_eq_ok_iff _ _ _).mp h
      have hbit := f.bit_bank
      obtain ⟨op, w, rd, ra, rb, q, z⟩ := f
      simp_all [Format.unusedZero, encodeFields]

end Sys2Proof

open Sys2Proof Sys2Proof.Machine

/-- Settles O1: the fields of a word are the fields it was assembled from, and those decode to the command. -/
theorem decodeOfEncodeIsTheCommand : Obligations.DecodeOfEncodeIsTheCommand := by
  intro i
  rw [decode, encode, fields_assemble, decodeFields_encodeFields]

/-- Settles O2: the command's fields are those of the word, and a word is assembled from its fields. -/
theorem encodeOfDecodeIsTheWord : Obligations.EncodeOfDecodeIsTheWord := by
  intro c i h
  rw [encode, encodeFields_of_decodeFields h, assemble_fields]

end

section
/-! The opcode table (30_encoding.md R69, R81): the mask of a row covers the opcode and all a format does not use, so a
row selects exactly the words that the decoder's row for that opcode accepts. -/

namespace Sys2Proof

/-- The bits a format fixes in a word: the opcode, the reserved bits and the fields it does not use (R67, R70). -/
def Format.fixed : Format → Fields
  | .Z => ⟨0x3F, 1, 7, 7, 7, 0x3F, 0x3FF⟩
  | .M => ⟨0x3F, 0, 0, 0, 7, 0x3F, 0x3FF⟩
  | .C => ⟨0x3F, 0, 0, 7, 7, 0, 0x3FF⟩
  | .A => ⟨0x3F, 0, 0, 0, 0, 0x3F, 0x3FF⟩
  | .P => ⟨0x3F, 0, 7, 0, 0, 0x3F, 0x3FF⟩
  | .V => ⟨0x3F, 0, 7, 0, 7, 0x3F, 0x3FF⟩

/-- A row of the table that fixes the bits of a format and has the given opcode (R81). -/
structure OpcodeRow.IsRowOf (row : OpcodeRow) (op : BitVec 6) (fmt : Format) : Prop where
  mask : row.mask = assemble fmt.fixed
  pattern : row.pattern = assemble ⟨op, 0, 0, 0, 0, 0, 0⟩

/-- Words with different fields are different (R66, R68). -/
theorem assemble_inj (f g : Fields) : assemble f = assemble g ↔ f = g :=
  ⟨fun h => by rw [← fields_assemble f, h, fields_assemble], congrArg assemble⟩

/-- A row selects the words of its opcode that its format accepts (R70, R81). -/
theorem OpcodeRow.IsRowOf.selects_iff {row : OpcodeRow} {op : BitVec 6} {fmt : Format} (h : row.IsRowOf op fmt)
    (c : CommandWord) : row.selects c = true ↔
      (fieldsOf c).op = op ∧ (fieldsOf c).z = 0#10 ∧ fmt.unusedZero (fieldsOf c) = true := by
  have hmasked : row.selects c = true ↔
      assemble (fieldsOf c) &&& assemble fmt.fixed = assemble ⟨op, 0, 0, 0, 0, 0, 0⟩ := by
    rw [assemble_fields, ← h.mask, ← h.pattern, OpcodeRow.selects, beq_iff_eq]
  rw [hmasked, Laws.assemble_and, assemble_inj]
  have hop (x : BitVec 6) : x &&& 0x3F#6 = x := BitVec.and_allOnes
  have hreg (x : BitVec 3) : x &&& 7#3 = x := BitVec.and_allOnes
  have hbit (x : BitVec 1) : x &&& 1#1 = x := BitVec.and_allOnes
  have hz (x : BitVec 10) : x &&& 0x3FF#10 = x := BitVec.and_allOnes
  cases fmt <;> simp [Format.fixed, Format.unusedZero, hop, hreg, hbit, hz] <;> tauto

end Sys2Proof

namespace Sys2Proof.Machine

/-- The words of the command's opcode are commands of one row, the command's own, and that row has the opcode and the
format they are encoded in (R69, R81). -/
theorem row_encodedAs (i : Instr) :
    ∃ op fmt mk, EncodedAs op fmt mk ∧ i.row.IsRowOf op fmt ∧ ∀ f, (mk f).row = i.row := by
  cases i with
  | nop => exact ⟨_, _, _, encodedAs_nop, ⟨rfl, rfl⟩, fun _ => rfl⟩
  | clrovf => exact ⟨_, _, _, encodedAs_clrovf, ⟨rfl, rfl⟩, fun _ => rfl⟩
  | mov => exact ⟨_, _, _, encodedAs_mov, ⟨rfl, rfl⟩, fun _ => rfl⟩
  | fromint => exact ⟨_, _, _, encodedAs_fromint, ⟨rfl, rfl⟩, fun _ => rfl⟩
  | fromfrac => exact ⟨_, _, _, encodedAs_fromfrac, ⟨rfl, rfl⟩, fun _ => rfl⟩
  | fromf64 => exact ⟨_, _, _, encodedAs_fromf64, ⟨rfl, rfl⟩, fun _ => rfl⟩
  | add => exact ⟨_, _, _, encodedAs_add, ⟨rfl, rfl⟩, fun _ => rfl⟩
  | sub => exact ⟨_, _, _, encodedAs_sub, ⟨rfl, rfl⟩, fun _ => rfl⟩
  | mul => exact ⟨_, _, _, encodedAs_mul, ⟨rfl, rfl⟩, fun _ => rfl⟩
  | div => exact ⟨_, _, _, encodedAs_div, ⟨rfl, rfl⟩, fun _ => rfl⟩
  | rem => exact ⟨_, _, _, encodedAs_rem, ⟨rfl, rfl⟩, fun _ => rfl⟩
  | eq => exact ⟨_, _, _, encodedAs_eq, ⟨rfl, rfl⟩, fun _ => rfl⟩
  | ne => exact ⟨_, _, _, encodedAs_ne, ⟨rfl, rfl⟩, fun _ => rfl⟩
  | lt => exact ⟨_, _, _, encodedAs_lt, ⟨rfl, rfl⟩, fun _ => rfl⟩
  | gt => exact ⟨_, _, _, encodedAs_gt, ⟨rfl, rfl⟩, fun _ => rfl⟩
  | le => exact ⟨_, _, _, encodedAs_le, ⟨rfl, rfl⟩, fun _ => rfl⟩
  | ge => exact ⟨_, _, _, encodedAs_ge, ⟨rfl, rfl⟩, fun _ => rfl⟩
  | toint => exact ⟨_, _, _, encodedAs_toint, ⟨rfl, rfl⟩, fun _ => rfl⟩
  | frac => exact ⟨_, _, _, encodedAs_frac, ⟨rfl, rfl⟩, fun _ => rfl⟩
  | fracdiv => exact ⟨_, _, _, encodedAs_fracdiv, ⟨rfl, rfl⟩, fun _ => rfl⟩
  | tof32 => exact ⟨_, _, _, encodedAs_tof32, ⟨rfl, rfl⟩, fun _ => rfl⟩
  | tof64 => exact ⟨_, _, _, encodedAs_tof64, ⟨rfl, rfl⟩, fun _ => rfl⟩

/-- A word that a row selects decodes to a command of that row (R74, R81). -/
theorem decode_of_selects {c : CommandWord} {i : Instr} (h : i.row.selects c = true) :
    ∃ j, decode c = .ok j ∧ j.row = i.row := by
  obtain ⟨op, fmt, mk, hwords, hrow, hmk⟩ := row_encodedAs i
  obtain ⟨hop, hz, hunused⟩ := (hrow.selects_iff c).mp h
  have hdec := hwords ⟨c, 0, 0, 0⟩ hop
  rw [if_pos ⟨hz, hunused⟩] at hdec
  exact ⟨_, hdec, hmk _⟩

/-- The word of a command lies in the command's row (R81). -/
theorem row_selects_encode (i : Instr) : i.row.selects (encode i) = true := by
  cases i
  exacts [Laws.EncodedWordInRow.nop, Laws.EncodedWordInRow.clrovf, Laws.EncodedWordInRow.mov ..,
    Laws.EncodedWordInRow.fromint .., Laws.EncodedWordInRow.fromfrac .., Laws.EncodedWordInRow.fromf64 ..,
    Laws.EncodedWordInRow.add .., Laws.EncodedWordInRow.sub .., Laws.EncodedWordInRow.mul ..,
    Laws.EncodedWordInRow.div .., Laws.EncodedWordInRow.rem .., Laws.EncodedWordInRow.eq ..,
    Laws.EncodedWordInRow.ne .., Laws.EncodedWordInRow.lt .., Laws.EncodedWordInRow.gt ..,
    Laws.EncodedWordInRow.le .., Laws.EncodedWordInRow.ge .., Laws.EncodedWordInRow.toint ..,
    Laws.EncodedWordInRow.frac .., Laws.EncodedWordInRow.fracdiv .., Laws.EncodedWordInRow.tof32 ..,
    Laws.EncodedWordInRow.tof64 ..]

end Sys2Proof.Machine

open Sys2Proof Sys2Proof.Machine

/-- Settles O3: a row selects the word of each of its commands and no word of any other, since the decoder gives every
word one command. -/
theorem decoderAgreesWithTheOpcodeTable : Obligations.DecoderAgreesWithTheOpcodeTable := by
  refine ⟨fun c i hdec => ?_, fun c i => decode_of_selects, fun c i j hi hj => ?_⟩
  · rw [← encodeOfDecodeIsTheWord c i hdec]
    exact row_selects_encode i
  · obtain ⟨k, hk, hki⟩ := decode_of_selects hi
    obtain ⟨l, hl, hlj⟩ := decode_of_selects hj
    obtain rfl : k = l := by simpa [hk] using hl
    exact hki.symm.trans hlj

end

section
/-! The invariant of the FXU (10_state.md R23, R29): a command writes a register only with the precision of its own
immediate, which has been checked, or of a constructed source, so every constructed register stays sound. -/

namespace Sys2Proof.Machine

theorem State.registersSound_iff (s : State) : s.RegistersSound ↔ ∀ b i, (s.reg b i).Sound :=
  ⟨fun ⟨hW, hL⟩ b i => match b with | .W => hW i | .L => hL i, fun h => ⟨h .W, h .L⟩⟩

/-- An unconstructed register is sound (R24). -/
theorem NumReg.sound_of_unconstructed {n : Nat} {x : NumReg n} (h : x.v = false) : x.Sound := by
  simp [NumReg.Sound, h]

/-- A number stored at a precision of the bank keeps all registers sound (R23, R25). -/
theorem State.StoredIn.registersSound {s t : State} {b : Bank} {rd : RegIndex} {raw : BitVec b.width} {p : Precision}
    {overflowed : Prop} (h : s.StoredIn t b rd raw p overflowed) (hs : s.RegistersSound)
    (hp : p.toNat ≤ b.width - 1) : t.RegistersSound := by
  rw [State.registersSound_iff] at hs ⊢
  intro c i
  by_cases hrd : c = b ∧ i = rd
  · obtain ⟨rfl, rfl⟩ := hrd
    rw [h.destination]
    exact fun _ => ⟨hp, rfl⟩
  · rw [h.otherRegisters c i hrd]
    exact hs c i

/-- The next state, if the answer is one, has sound registers. -/
def LeavesSound (r : Result) : Prop := ∀ t, r = .next t → t.RegistersSound

theorem leavesSound_next {t : State} (h : t.RegistersSound) : LeavesSound (.next t) := by
  rintro _ ⟨⟩
  exact h

section Rules

variable {s : State} (hs : s.RegistersSound) {b : Bank} {rd : RegIndex}

include hs

theorem leavesSound_raise (c : Cause) : LeavesSound (.next (s.raise c)) := leavesSound_next hs

theorem leavesSound_writeY (v : PortWord) : LeavesSound (.next (s.writeY v)) := leavesSound_next hs

theorem leavesSound_writeReg (raw : BitVec b.width) {p : Precision} (hp : p.toNat ≤ b.width - 1) :
    LeavesSound (.next (s.writeReg b rd raw p)) :=
  leavesSound_next ((s.writeReg_storedIn b rd raw p).registersSound hs hp)

theorem leavesSound_storeChecked (z : Int) {p : Precision} (hp : p.toNat ≤ b.width - 1) :
    LeavesSound (.next (s.storeChecked b rd z p)) :=
  leavesSound_next ((s.storeChecked_storedIn b rd z p).registersSound hs hp)

/-- The rule of a construction runs with a precision of the bank (R75). -/
theorem leavesSound_withPrecision {q : Precision} {rule : Result} (h : q.toNat ≤ b.width - 1 → LeavesSound rule) :
    LeavesSound (withPrecision s b q rule) := by
  rcases withPrecision_eq s b q rule with ⟨hq, hrun⟩ | ⟨_, hfault⟩
  · rw [hrun]
    exact h hq
  · rw [hfault]
    exact leavesSound_raise hs _

/-- A rule finds a precision of the bank in its source (R23). -/
theorem leavesSound_withSource {ra : RegIndex} {rule : NumReg b.width → Result}
    (h : ∀ x, x.q.toNat ≤ b.width - 1 → LeavesSound (rule x)) : LeavesSound (withSource s b ra rule) := by
  rcases withSource_eq s b ra rule with ⟨hv, hrun⟩ | ⟨_, hfault⟩
  · obtain ⟨hq, -⟩ := s.registersSound_iff.mp hs b ra hv
    rw [hrun]
    exact h _ hq
  · rw [hfault]
    exact leavesSound_raise hs _

/-- The common precision of two sources is a precision of the bank (R110). -/
theorem leavesSound_withAligned {ra rb : RegIndex} {rule : Aligned → Result}
    (h : ∀ v : Aligned, v.qc.toNat ≤ b.width - 1 → LeavesSound (rule v)) :
    LeavesSound (withAligned s b ra rb rule) := by
  refine leavesSound_withSource hs fun x hx => leavesSound_withSource hs fun y hy => h _ ?_
  rw [align_eq_alignedPair]
  change (commonPrecision x y).toNat ≤ _
  rw [commonPrecision]
  split <;> assumption

/-- A zero divisor is a fault, which writes no register (R114, R116). -/
theorem leavesSound_unlessZero {z : Int} {rule : Result} (h : LeavesSound rule) :
    LeavesSound (if z = 0 then .next (s.raise .divideByZero) else rule) := by
  split
  next => exact leavesSound_raise hs _
  next => exact h

/-- `FROMF64` stores at its immediate precision or faults (R94, R199). -/
theorem exec_fromf64_leavesSound (q : Precision) : LeavesSound (exec (.fromf64 b rd q) s) := by
  refine leavesSound_withPrecision hs fun hq => ?_
  split
  next => exact leavesSound_raise hs _
  next => exact leavesSound_raise hs _
  next =>
    dsimp only
    split
    next => exact leavesSound_writeReg hs _ hq
    next => exact leavesSound_raise hs _

/-- Every command leaves sound registers sound (R23). -/
theorem exec_leavesSound (i : Instr) : LeavesSound (exec i s) := by
  cases i with
  | nop | clrovf => exact leavesSound_next hs
  | mov => exact leavesSound_withSource hs fun _ hq => leavesSound_writeReg hs _ hq
  | fromint => exact leavesSound_withPrecision hs fun hq => leavesSound_storeChecked hs _ hq
  | fromfrac =>
    exact leavesSound_withPrecision hs fun hq => leavesSound_unlessZero hs <| leavesSound_next <|
      (State.storeChecked_storedIn _ _ _ _ _).of_checkOverflow.of_checkOverflow.of_checkOverflow.registersSound hs hq
  | fromf64 => exact exec_fromf64_leavesSound hs _
  | add | sub | mul => exact leavesSound_withAligned hs fun _ hq => leavesSound_storeChecked hs _ hq
  | div =>
    exact leavesSound_withAligned hs fun _ hq => leavesSound_unlessZero hs (leavesSound_storeChecked hs _ hq)
  | rem => exact leavesSound_withAligned hs fun _ hq => leavesSound_unlessZero hs (leavesSound_writeReg hs _ hq)
  | eq | ne | lt | gt | le | ge => exact leavesSound_withAligned hs fun _ _ => leavesSound_writeY hs _
  | toint | frac | fracdiv | tof32 | tof64 =>
    simp only [exec_toint, exec_frac, exec_fracdiv, exec_tof32, exec_tof64]
    exact leavesSound_withSource hs fun _ _ => leavesSound_next hs

end Rules

/-- Fault entry writes `FAULT` and one of the five codes together (R191, R196). -/
theorem State.raise_causeSound (s : State) (c : Cause) : (s.raise c).CauseSound := by
  rw [State.CauseSound, if_pos (s.raise_status_fault c)]
  exact c.code_bounds

/-- Only fault entry writes `FAULT` and `CAUSE` (R31). -/
theorem Effect.causeSound {i : Instr} {s t : State} (h : Effect i s t) (hs : s.CauseSound) : t.CauseSound := by
  cases h with
  | unchanged _ => exact hs
  | overflowCleared _ => exact hs
  | raised c => exact s.raise_causeSound c
  | resultWritten v _ => exact hs
  | stored _ _ hstored =>
    obtain ⟨hfault, hcause, -⟩ := hstored.otherStatus
    rwa [State.CauseSound, hfault, hcause]

/-- A command event performed keeps the invariant, legal word or not (R23, R191). -/
theorem performCommand_inv {s t : State} (hs : s.Inv) (h : performCommand s = .next t) : t.Inv := by
  obtain ⟨hregs, hcause⟩ := hs
  rcases performCommand_cases s with ⟨i, _, hexec⟩ | ⟨_, _, hraise⟩
  · have hnext : exec i s = .next t := hexec.symm.trans h
    exact ⟨exec_leavesSound hregs i t hnext, (effect_of_exec_eq hnext).causeSound hcause⟩
  · obtain rfl : s.raise .illegalCommand = t := by simpa [hraise] using h
    exact ⟨hregs, s.raise_causeSound _⟩

/-- No register is constructed after `Reset`, so the invariant holds there (R36, R215). -/
theorem State.takeReset_inv (s : State) (rest : List Event) : (s.takeReset rest).Inv := by
  refine ⟨(State.registersSound_iff _).mpr fun b i => NumReg.sound_of_unconstructed ?_, rfl⟩
  rw [State.takeReset_reg]
  rfl

end Sys2Proof.Machine

open Sys2Proof Sys2Proof.Machine

/-- Settles O15: an idle step and an ignored command change nothing the invariant speaks of, `Reset` establishes it, and
a performed command keeps it. -/
theorem everyStepKeepsTheInvariant : Obligations.EveryStepKeepsTheInvariant := by
  intro s t hs hstep
  rcases step_cases s with ⟨_, hidle⟩ | ⟨rest, _, hreset⟩ | ⟨_, rest, _, _, hdiscard⟩ | ⟨c, rest, _, _, hperf⟩
  · obtain rfl : s = t := by simpa [hidle] using hstep
    exact hs
  · obtain rfl : s.takeReset rest = t := by simpa [hreset] using hstep
    exact s.takeReset_inv rest
  · obtain rfl : s.discard rest = t := by simpa [hdiscard] using hstep
    exact hs
  · exact performCommand_inv (s := s.deliver c rest) hs (hperf.symm.trans hstep)

/-- Settles O14: the reset state is what a `Reset` event leaves with no event to come. -/
theorem invariantHoldsAtReset : Obligations.InvariantHoldsAtReset := State.reset.takeReset_inv []

end

section
/-! What a command depends on (00_scope.md R11): a relation of states that the operations of a command keep, and under
which its sources and its ports look the same, is kept by the command. Noninterference, the unread port bits and the
independence of the banks are this one fact for three relations. -/

namespace Sys2Proof.Machine

/-- Every command finds the same on the same ports (R73). -/
theorem samePorts_refl (i : Instr) (c : Command) : i.SamePorts c c := by
  cases i <;> simp [Instr.SamePorts]

/-- Both answers are next states, and these are related. -/
def Matching (R : State → State → Prop) (r r' : Result) : Prop := ∃ u u', r = .next u ∧ r' = .next u' ∧ R u u'

/-- The operations of the command `i` keep the relation `R` from the states `s` and `t` on, and `i` finds the same in
its sources and on its ports in both. -/
structure Respects (i : Instr) (R : State → State → Prop) (s t : State) : Prop where
  related : R s t
  valid : ∀ b, i.bank = some b → ∀ j, (s.reg b j).v = (t.reg b j).v
  register : ∀ b, i.bank = some b → ∀ j, (s.reg b j).v = true → s.reg b j = t.reg b j
  ports : i.SamePorts s.port t.port
  raise : ∀ c, R (s.raise c) (t.raise c)
  writeY : ∀ v, R (s.writeY v) (t.writeY v)
  clearOverflow : R s.clearOverflow t.clearOverflow
  checkOverflow : ∀ u u' n z, R u u' → R (u.checkOverflow n z) (u'.checkOverflow n z)
  writeReg : ∀ b, i.bank = some b → ∀ u u' rd raw p, R u u' → R (u.writeReg b rd raw p) (u'.writeReg b rd raw p)

section Rules

variable {i : Instr} {R : State → State → Prop} {s t : State} {b : Bank} {rd : RegIndex}

theorem matching_next {u u' : State} (h : R u u') : Matching R (.next u) (.next u') := ⟨u, u', rfl, rfl, h⟩

variable (h : Respects i R s t) (hb : i.bank = some b)

include h

theorem Respects.matching_raise (c : Cause) : Matching R (.next (s.raise c)) (.next (t.raise c)) :=
  matching_next (h.raise c)

theorem Respects.matching_writeY (v : PortWord) : Matching R (.next (s.writeY v)) (.next (t.writeY v)) :=
  matching_next (h.writeY v)

theorem Respects.matching_withPrecision {q : Precision} {rule rule' : Result} (hrule : Matching R rule rule') :
    Matching R (withPrecision s b q rule) (withPrecision t b q rule') := by
  unfold withPrecision
  split
  next => exact hrule
  next => exact h.matching_raise _

theorem Respects.matching_unlessZero {z : Int} {rule rule' : Result} (hrule : Matching R rule rule') :
    Matching R (if z = 0 then .next (s.raise .divideByZero) else rule)
      (if z = 0 then .next (t.raise .divideByZero) else rule') := by
  split
  next => exact h.matching_raise _
  next => exact hrule

include hb

theorem Respects.matching_writeReg (raw : BitVec b.width) (p : Precision) :
    Matching R (.next (s.writeReg b rd raw p)) (.next (t.writeReg b rd raw p)) :=
  matching_next (h.writeReg b hb s t rd raw p h.related)

/-- A checked store after related overflow checks, or none. -/
theorem Respects.matching_storeChecked {u u' : State} (hu : R u u') (z : Int) (p : Precision) :
    Matching R (.next (u.storeChecked b rd z p)) (.next (u'.storeChecked b rd z p)) :=
  matching_next (h.writeReg b hb _ _ rd _ p (h.checkOverflow u u' _ z hu))

/-- A source is constructed in both states, with the same number, or in neither (R24). -/
theorem Respects.matching_withSource {ra : RegIndex} {rule rule' : NumReg b.width → Result}
    (hrule : ∀ x, Matching R (rule x) (rule' x)) : Matching R (withSource s b ra rule) (withSource t b ra rule') := by
  have hvalid := h.valid b hb ra
  rcases withSource_eq s b ra rule with ⟨hv, hrun⟩ | ⟨hv, hfault⟩
  · rw [hrun, h.register b hb ra hv, withSource_of_valid (hvalid ▸ hv)]
    exact hrule _
  · rw [hfault, withSource_of_not_valid (by simp [← hvalid, hv])]
    exact h.matching_raise .unconstructed

theorem Respects.matching_withAligned {ra rb : RegIndex} {rule rule' : Aligned → Result}
    (hrule : ∀ v, Matching R (rule v) (rule' v)) :
    Matching R (withAligned s b ra rb rule) (withAligned t b ra rb rule') :=
  h.matching_withSource hb fun _ => h.matching_withSource hb fun _ => hrule _

end Rules

section Construction

variable {R : State → State → Prop} {s t : State} {b : Bank} {rd : RegIndex} {q : Precision}

/-- `FROMINT` depends on the low bits of `IN0` (R73, R92). -/
theorem exec_fromint_matching (h : Respects (.fromint b rd q) R s t) :
    Matching R (exec (.fromint b rd q) s) (exec (.fromint b rd q) t) := by
  have hport : portInt b s.port.in0 = portInt b t.port.in0 := congrArg BitVec.toInt h.ports
  simp only [exec, execFromint, hport]
  exact h.matching_withPrecision (h.matching_storeChecked rfl h.related _ q)

/-- `FROMFRAC` depends on the low bits of all three ports (R73, R93). -/
theorem exec_fromfrac_matching (h : Respects (.fromfrac b rd q) R s t) :
    Matching R (exec (.fromfrac b rd q) s) (exec (.fromfrac b rd q) t) := by
  obtain ⟨h0, h1, h2⟩ := h.ports
  have hport0 : portInt b s.port.in0 = portInt b t.port.in0 := congrArg BitVec.toInt h0
  have hport1 : portInt b s.port.in1 = portInt b t.port.in1 := congrArg BitVec.toInt h1
  have hport2 : portInt b s.port.in2 = portInt b t.port.in2 := congrArg BitVec.toInt h2
  simp only [exec, execFromfrac, hport0, hport1, hport2]
  exact h.matching_withPrecision <| h.matching_unlessZero <| h.matching_storeChecked rfl
    (h.checkOverflow _ _ _ _ <| h.checkOverflow _ _ _ _ <| h.checkOverflow _ _ _ _ h.related) _ q

/-- `FROMF64` depends on the whole of `IN0` (R73, R94). -/
theorem exec_fromf64_matching (h : Respects (.fromf64 b rd q) R s t) :
    Matching R (exec (.fromf64 b rd q) s) (exec (.fromf64 b rd q) t) := by
  have hport : s.port.in0 = t.port.in0 := h.ports
  simp only [exec, execFromf64, hport]
  refine h.matching_withPrecision ?_
  split
  next => exact h.matching_raise _
  next => exact h.matching_raise _
  next =>
    split
    next => exact h.matching_writeReg rfl _ q
    next => exact h.matching_raise _

end Construction

/-- A relation a command respects is kept by the command. -/
theorem exec_matching {i : Instr} {R : State → State → Prop} {s t : State} (h : Respects i R s t) :
    Matching R (exec i s) (exec i t) := by
  cases i with
  | nop => exact matching_next h.related
  | clrovf => exact matching_next h.clearOverflow
  | mov => exact h.matching_withSource rfl fun _ => h.matching_writeReg rfl _ _
  | fromint => exact exec_fromint_matching h
  | fromfrac => exact exec_fromfrac_matching h
  | fromf64 => exact exec_fromf64_matching h
  | add | sub | mul =>
    simp only [exec_add, exec_sub, exec_mul]
    exact h.matching_withAligned rfl fun _ => h.matching_storeChecked rfl h.related _ _
  | div =>
    simp only [exec_div]
    exact h.matching_withAligned rfl fun _ => h.matching_unlessZero (h.matching_storeChecked rfl h.related _ _)
  | rem =>
    simp only [exec_rem]
    exact h.matching_withAligned rfl fun _ => h.matching_unlessZero (h.matching_writeReg rfl _ _)
  | eq | ne | lt | gt | le | ge =>
    simp only [exec_eq, exec_ne, exec_lt, exec_gt, exec_le, exec_ge]
    exact h.matching_withAligned rfl fun _ => h.matching_writeY _
  | toint | frac | fracdiv | tof32 | tof64 =>
    simp only [exec_toint, exec_frac, exec_fracdiv, exec_tof32, exec_tof64]
    exact h.matching_withSource rfl fun _ => h.matching_writeY _

/-- A function of states that a command respects commutes with the command. -/
theorem exec_commutes {i : Instr} {f : State → State} {s t : State} (h : Respects i (fun u u' => u' = f u) s (f s))
    (hexec : exec i s = .next t) : exec i (f s) = .next (f t) := by
  obtain ⟨u, u', hs, ht, rfl⟩ := exec_matching h
  obtain rfl : u = t := by simpa [hs] using hexec
  exact ht

end Sys2Proof.Machine

end

section
/-! The port bits a command does not read (30_encoding.md R67, R73), and the bank it does not belong to (10_state.md
R21): neither is read or written by any of the operations of a command. -/

namespace Sys2Proof.Machine

/-- The state with other values on the ports (R13). -/
def State.withPort (d : Command) (s : State) : State := { s with port := d }

/-- The registers of a bank (R21). -/
def State.bankOf (s : State) : (c : Bank) → Vector (NumReg c.width) registersPerBank
  | .W => s.bankW
  | .L => s.bankL

/-- The state with other contents of a bank (R21). -/
def State.withBank (s : State) : (c : Bank) → Vector (NumReg c.width) registersPerBank → State
  | .W, v => { s with bankW := v }
  | .L, v => { s with bankL := v }

theorem State.bankOf_withBank (s : State) (c : Bank) (v : Vector (NumReg c.width) registersPerBank) :
    (s.withBank c v).bankOf c = v := by cases c <;> rfl

theorem State.withBank_bankOf (s : State) (c : Bank) : s.withBank c (s.bankOf c) = s := by cases c <;> rfl

/-- The banks do not alias (R21). -/
theorem State.reg_withBank_other (s : State) {b c : Bank} (h : b ≠ c) (v : Vector (NumReg c.width) registersPerBank)
    (j : RegIndex) : (s.withBank c v).reg b j = s.reg b j := by
  cases b <;> cases c
  case W.W | L.L => exact absurd rfl h
  case W.L | L.W => rfl

theorem State.writeReg_withBank_other (s : State) {b c : Bank} (h : b ≠ c)
    (v : Vector (NumReg c.width) registersPerBank) (rd : RegIndex) (raw : BitVec b.width) (p : Precision) :
    (s.withBank c v).writeReg b rd raw p = (s.writeReg b rd raw p).withBank c v := by
  cases b <;> cases c
  case W.W | L.L => exact absurd rfl h
  case W.L | L.W => rfl

/-- A command whose ports look the same after an exchange does not see it: the word that fault entry stores is the
same (R196). -/
theorem respects_withPort {i : Instr} {s : State} {d : Command} (hports : i.SamePorts s.port d)
    (hword : d.word = s.port.word) : Respects i (fun u u' => u' = u.withPort d) s (s.withPort d) where
  related := rfl
  valid b _ j := by cases b <;> rfl
  register b _ j _ := by cases b <;> rfl
  ports := hports
  raise c := by simp [State.raise, State.withPort, hword]
  writeY _ := rfl
  clearOverflow := rfl
  checkOverflow := by
    rintro u _ n z rfl
    unfold State.checkOverflow
    split <;> rfl
  writeReg := by
    rintro b - u _ rd raw p rfl
    cases b <;> rfl

theorem bank_ne {i : Instr} {b c : Bank} (hbank : i.bank ≠ some c) (hb : i.bank = some b) : b ≠ c := by
  rintro rfl
  exact hbank hb

/-- A command not of a bank does not see what the bank holds (R21). -/
theorem respects_withBank {i : Instr} {c : Bank} (hbank : i.bank ≠ some c) (s : State)
    (v : Vector (NumReg c.width) registersPerBank) :
    Respects i (fun u u' => u' = u.withBank c v) s (s.withBank c v) where
  related := rfl
  valid b hb j := by rw [s.reg_withBank_other (bank_ne hbank hb)]
  register b hb j _ := by rw [s.reg_withBank_other (bank_ne hbank hb)]
  ports := by cases c <;> exact samePorts_refl i s.port
  raise _ := by cases c <;> rfl
  writeY _ := by cases c <;> rfl
  clearOverflow := by cases c <;> rfl
  checkOverflow := by
    rintro u _ n z rfl
    unfold State.checkOverflow
    cases c <;> split <;> rfl
  writeReg := by
    rintro b hb u _ rd raw p rfl
    exact u.writeReg_withBank_other (bank_ne hbank hb) v rd raw p

/-- A command not of a bank commutes with every exchange of the bank. Exchanged for itself the bank comes out as it went
in, so the command has not written it (R21). -/
theorem exec_other_bank {i : Instr} {c : Bank} {s t : State} (v : Vector (NumReg c.width) registersPerBank)
    (hbank : i.bank ≠ some c) (hexec : exec i s = .next t) :
    t.bankOf c = s.bankOf c ∧ exec i (s.withBank c v) = .next (t.withBank c v) := by
  have hswap (v) : exec i (s.withBank c v) = .next (t.withBank c v) :=
    exec_commutes (f := fun u => u.withBank c v) (respects_withBank hbank s v) hexec
  have hown := hswap (s.bankOf c)
  rw [s.withBank_bankOf, hexec, Host.Outcome.next.injEq] at hown
  exact ⟨by rw [hown, State.bankOf_withBank], hswap v⟩

end Sys2Proof.Machine

open Sys2Proof Sys2Proof.Machine

/-- Settles O17: an exchange of the ports commutes with a command that reads the same on both. -/
theorem onlyTheReadPortBitsMatter : Obligations.OnlyTheReadPortBitsMatter :=
  fun _ _ _ _ hports hword hexec => exec_commutes (respects_withPort hports hword) hexec

/-- Settles O18: an exchange of the bank a command is not of, bank L or bank W, commutes with the command. -/
theorem banksAreIndependent : Obligations.BanksAreIndependent :=
  ⟨fun _ _ _ v => exec_other_bank (c := .L) v, fun _ _ _ v => exec_other_bank (c := .W) v⟩

end

section
/-! What the spec leaves unspecified (10_state.md R24, R28, R32): no operation reads the fields of an unconstructed
register, `Y` or `FCMD`, and each that validates one of them writes all of it. -/

namespace Sys2Proof.Machine

namespace State.SameSpecified

theorem refl (s : State) : s.SameSpecified s :=
  ⟨rfl, fun _ _ => rfl, fun _ _ _ => rfl, fun _ => rfl, fun _ => rfl, rfl, rfl⟩

variable {s t : State} (h : s.SameSpecified t)

include h

/-- Fault entry makes `FCMD` specified by writing it (R196). -/
theorem raise (c : Cause) : (s.raise c).SameSpecified (t.raise c) where
  status := by simp [State.raise, h.status]
  valid := h.valid
  registers := h.registers
  result := h.result
  faultCommand _ := congrArg Command.word h.host.1
  host := h.host

/-- Writing `Y` makes it specified (R28). -/
theorem writeY (v : PortWord) : (s.writeY v).SameSpecified (t.writeY v) where
  status := by simp [State.writeY, h.status]
  valid := h.valid
  registers := h.registers
  result _ := rfl
  faultCommand := h.faultCommand
  host := h.host

theorem clearOverflow : s.clearOverflow.SameSpecified t.clearOverflow where
  status := by simp [State.clearOverflow, h.status]
  valid := h.valid
  registers := h.registers
  result := h.result
  faultCommand := h.faultCommand
  host := h.host

theorem checkOverflow (n : Nat) (z : Int) : (s.checkOverflow n z).SameSpecified (t.checkOverflow n z) where
  status := by simp only [State.checkOverflow, h.status]; split <;> simp [h.status]
  valid := by simpa using h.valid
  registers := by simpa using h.registers
  result := by simpa using h.result
  faultCommand := by simpa using h.faultCommand
  host := by simpa using h.host

/-- A register write constructs the register with all its fields (R25). -/
theorem writeReg (b : Bank) (rd : RegIndex) (raw : BitVec b.width) (p : Precision) :
    (s.writeReg b rd raw p).SameSpecified (t.writeReg b rd raw p) where
  status := by simpa using h.status
  valid c i := by
    by_cases hrd : c = b ∧ i = rd
    · obtain ⟨rfl, rfl⟩ := hrd
      simp
    · simpa only [reg_writeReg_other _ b c rd i raw p hrd] using h.valid c i
  registers c i := by
    by_cases hrd : c = b ∧ i = rd
    · obtain ⟨rfl, rfl⟩ := hrd
      simp
    · simpa only [reg_writeReg_other _ b c rd i raw p hrd] using h.registers c i
  result := by simpa using h.result
  faultCommand := by simpa using h.faultCommand
  host := by simpa using h.host

/-- Every command respects agreement on what is specified (R24). -/
theorem respects (i : Instr) : Respects i State.SameSpecified s t where
  related := h
  valid b _ := h.valid b
  register b _ := h.registers b
  ports := h.host.1 ▸ samePorts_refl i s.port
  raise := h.raise
  writeY := h.writeY
  clearOverflow := h.clearOverflow
  checkOverflow _ _ n z hu := hu.checkOverflow n z
  writeReg b _ _ _ rd raw p hu := hu.writeReg b rd raw p

theorem discard (rest : List Event) : (s.discard rest).SameSpecified (t.discard rest) where
  status := h.status
  valid := h.valid
  registers := h.registers
  result := h.result
  faultCommand := h.faultCommand
  host := ⟨h.host.1, rfl⟩

theorem deliver (c : Command) (rest : List Event) : (s.deliver c rest).SameSpecified (t.deliver c rest) where
  status := h.status
  valid := h.valid
  registers := h.registers
  result := h.result
  faultCommand := h.faultCommand
  host := ⟨rfl, rfl⟩

/-- Agreeing states perform the same command, or fault on the same word (R74). -/
theorem performCommand_matching : Matching State.SameSpecified (performCommand s) (performCommand t) := by
  obtain ⟨hport, -⟩ := h.host
  unfold performCommand
  rw [hport]
  split
  next i _ => exact exec_matching (h.respects i)
  next => exact matching_next (h.raise _)

/-- Agreeing states take the same event, in the same way (R13, R197). -/
theorem step_matching : Matching State.SameSpecified (step s) (step t) := by
  obtain ⟨-, hevents⟩ := h.host
  unfold step takeEvent
  rw [hevents, h.status]
  split
  next => exact matching_next h
  next rest _ => exact matching_next (State.takeReset_eq s t rest ▸ .refl _)
  next c rest _ =>
    split
    next => exact matching_next (h.discard rest)
    next => exact (h.deliver c rest).performCommand_matching

end State.SameSpecified

end Sys2Proof.Machine

open Sys2Proof Sys2Proof.Machine

/-- Settles O16: every operation keeps agreement on what is specified, so every step does. -/
theorem unspecifiedContentsNeverMatter : Obligations.UnspecifiedContentsNeverMatter := by
  intro s t s' t' h hs ht
  obtain ⟨u, u', hu, hu', hrel⟩ := h.step_matching
  obtain rfl : u = s' := by simpa [hu] using hs
  obtain rfl : u' = t' := by simpa [hu'] using ht
  exact hrel

end

section
/-! The frame of a command (00_scope.md R14): what each of its five effects leaves as it was. -/

namespace Sys2Proof.Machine

/-- The effects of a command, and fault entry for an illegal word, are all that a performed command can do (R74). -/
theorem effect_of_performCommand {s t : State} (h : performCommand s = .next t) : ∃ i, Effect i s t := by
  rcases performCommand_cases s with ⟨i, _, hexec⟩ | ⟨_, _, hraise⟩
  · exact ⟨i, effect_of_exec_eq (hexec.symm.trans h)⟩
  · obtain rfl : s.raise .illegalCommand = t := by simpa [hraise] using h
    exact ⟨.nop, .raised _⟩

/-- Every command is performed to a next state (R13). -/
theorem performCommand_next (s : State) : ∃ t, performCommand s = .next t := by
  rcases performCommand_cases s with ⟨i, _, hexec⟩ | ⟨_, _, hraise⟩
  · obtain ⟨t, hnext, _⟩ := exec_hasEffect i s
    exact ⟨t, hexec.trans hnext⟩
  · exact ⟨_, hraise⟩

namespace Effect

variable {i : Instr} {s t : State} (h : Effect i s t)

include h

/-- No effect reaches the host's side (R13). -/
theorem host_eq : t.port = s.port ∧ t.events = s.events := by
  cases h with
  | stored _ _ hstored => exact hstored.host
  | _ => exact ⟨rfl, rfl⟩

/-- A register that is not the destination is left as it is (R14). -/
theorem reg_eq {b : Bank} {j : RegIndex} (hdest : i.destination ≠ some (b, j)) : t.reg b j = s.reg b j := by
  cases h with
  | stored hrd _ hstored => exact hstored.otherRegisters b j fun ⟨hb, hj⟩ => hdest (hb ▸ hj ▸ hrd)
  | _ => rfl

/-- No effect unconstructs a register (R25). -/
theorem valid_of_valid {b : Bank} {j : RegIndex} (hv : (s.reg b j).v = true) : (t.reg b j).v = true := by
  cases h with
  | @stored _ b' rd _ _ _ _ _ hstored =>
    by_cases hrd : b = b' ∧ j = rd
    · obtain ⟨rfl, rfl⟩ := hrd
      rw [hstored.destination]
    · rwa [hstored.otherRegisters b j hrd]
  | _ => exact hv

/-- `Y` and `YV` are written by the commands of formats P and V alone (R28, R67). -/
theorem result_eq (hY : i.writesY = false) : t.y = s.y ∧ t.status.yv = s.status.yv := by
  cases h with
  | resultWritten v hwrites => simp [hY] at hwrites
  | stored _ _ hstored =>
    obtain ⟨-, -, hyv⟩ := hstored.otherStatus
    exact ⟨hstored.result, hyv⟩
  | _ => exact ⟨rfl, rfl⟩

/-- No effect clears `YV` (R28). -/
theorem yv_of_yv (hyv : s.status.yv = true) : t.status.yv = true := by
  cases h with
  | resultWritten v _ => rfl
  | stored _ _ hstored =>
    obtain ⟨-, -, hkept⟩ := hstored.otherStatus
    rwa [hkept]
  | _ => exact hyv

/-- No effect clears `FAULT` (R31). -/
theorem fault_of_fault (hfault : s.status.fault = true) : t.status.fault = true := by
  cases h with
  | raised c => rfl
  | stored _ _ hstored =>
    obtain ⟨hkept, -, -⟩ := hstored.otherStatus
    rwa [hkept]
  | _ => exact hfault

/-- Without fault entry `FCMD` and `CAUSE` are left as they are (R31, R32). -/
theorem fault_record_eq (hfault : t.status.fault = false) :
    t.fcmd = s.fcmd ∧ t.status.cause = s.status.cause := by
  cases h with
  | raised c => simp at hfault
  | stored _ _ hstored =>
    obtain ⟨-, hcause, -⟩ := hstored.otherStatus
    exact ⟨hstored.faultCommand, hcause⟩
  | _ => exact ⟨rfl, rfl⟩

/-- A command without an overflow check, other than `CLROVF`, leaves the flag as it is (R30). -/
theorem ovf_eq (hi : i ≠ .clrovf) (hchecks : i.checksOverflow = false) : t.status.ovf = s.status.ovf := by
  cases h with
  | overflowCleared hclr => exact absurd hclr hi
  | stored _ honly hstored =>
    rw [Bool.eq_iff_iff, hstored.overflowFlag]
    exact or_iff_left fun hoverflowed => by simpa [hchecks] using honly hoverflowed
  | _ => rfl

end Effect

end Sys2Proof.Machine

open Sys2Proof Sys2Proof.Machine

/-- Settles O19: the five effects by their frames. -/
theorem commandChangesAtMostItsDestination : Obligations.CommandChangesAtMostItsDestination := by
  intro i s t hexec
  have heffect := effect_of_exec_eq hexec
  exact ⟨fun _ _ => heffect.reg_eq, heffect.result_eq, heffect.fault_record_eq, heffect.host_eq⟩

/-- Settles O20: a checked store alone sets the flag, `CLROVF` alone clears it, and what ends in the fault state is
fault entry. -/
theorem overflowFlagIsSticky : Obligations.OverflowFlagIsSticky := by
  intro i s t hrun hexec
  have heffect := effect_of_exec_eq hexec
  refine ⟨?_, heffect.ovf_of_ne_clrovf, heffect.ovf_eq, fun hfault => ?_⟩
  · rintro rfl
    obtain rfl : s.clearOverflow = t := Host.Outcome.next.inj ((exec_clrovf s).symm.trans hexec)
    rfl
  · obtain ⟨c, rfl⟩ := heffect.eq_raise_of_fault hrun hfault
    rfl

/-- Settles O10: a command event is discarded, or has an effect that clears none of the three. -/
theorem commandsNeverClearFaultYvOrValid : Obligations.CommandsNeverClearFaultYvOrValid := by
  intro s t c rest hev hstep
  cases hfault : s.status.fault
  · have hperf : performCommand (s.deliver c rest) = .next t := (step_eq_performCommand hfault hev).symm.trans hstep
    obtain ⟨i, heffect⟩ := effect_of_performCommand hperf
    exact ⟨hfault ▸ heffect.fault_of_fault, heffect.yv_of_yv, fun _ _ => heffect.valid_of_valid⟩
  · obtain rfl : s.discard rest = t :=
      Host.Outcome.next.inj ((step_of_command_in_fault_state hfault hev).symm.trans hstep)
    exact ⟨fun _ => hfault, id, fun _ _ => id⟩

/-- Settles O12: idling, `Reset` and a discarded command take the event as they are defined, and no effect of a
performed one reaches the events to come. -/
theorem everyEventIsTaken : Obligations.EveryEventIsTaken := by
  intro s
  rcases step_cases s with ⟨hev, hs⟩ | ⟨rest, hev, hs⟩ | ⟨c, rest, hev, _, hs⟩ | ⟨c, rest, hev, _, hs⟩
  · exact ⟨s, hs, by simp [hev]⟩
  · exact ⟨_, hs, by simp [hev]⟩
  · exact ⟨_, hs, by simp [hev]⟩
  · obtain ⟨t, hperf⟩ := performCommand_next (s.deliver c rest)
    obtain ⟨i, heffect⟩ := effect_of_performCommand hperf
    obtain ⟨-, hevents⟩ := heffect.host_eq
    exact ⟨t, hs.trans hperf, by simp [hev, hevents]⟩

end

section
/-! Single events (00_scope.md R13, 70_reset_and_hazards.md R206, R215), and the state they start from (10_state.md
R36). -/

open Sys2Proof Sys2Proof.Machine

/-- Settles O6: out of the fault state a legal word is delivered and its command performed. -/
theorem stepRunsTheDecodedCommand : Obligations.StepRunsTheDecodedCommand :=
  fun _ _ _ _ hrun hev hdec => step_eq_exec hrun hev hdec

/-- Settles O8: of the four kinds of step a `Reset` event takes the second, whatever `FAULT` is. -/
theorem resetClearsRegistersAndStatus : Obligations.ResetClearsRegistersAndStatus := by
  intro s rest hev
  rcases step_cases s with ⟨hidle, _⟩ | ⟨rest', hreset, hs⟩ | ⟨_, _, hcmd, _, _⟩ | ⟨_, _, hcmd, _, _⟩
  · simp [hev] at hidle
  · obtain rfl : rest = rest' := by simpa [hev] using hreset
    exact ⟨_, hs, by simp [NumReg.unconstructed], by rw [State.takeReset_status]; rfl, rfl⟩
  · simp [hev] at hcmd
  · simp [hev] at hcmd

/-- Settles O11: of the four kinds of step only the first has no event. -/
theorem idleKeepsAllState : Obligations.IdleKeepsAllState := by
  intro s hev
  rcases step_cases s with ⟨_, hs⟩ | ⟨_, hreset, _⟩ | ⟨_, _, hcmd, _, _⟩ | ⟨_, _, hcmd, _, _⟩
  · exact hs
  · simp [hev] at hreset
  · simp [hev] at hcmd
  · simp [hev] at hcmd

/-- Settles O13: the registers of the reset state are `NumReg.unconstructed`. -/
theorem resetStateIsUnconstructed : Obligations.ResetStateIsUnconstructed :=
  ⟨fun b i => by rw [State.reset_reg]; rfl, by decide⟩

end

section
/-! Consequences of the arithmetic rules (41_alignment_arithmetic.md R111, R118, R123): what alignment, and the results
of `ADD`, `SUB`, `MUL` and `DIV`, come to for particular operands. -/

namespace Sys2Proof.Machine

section Alignment

variable {n : Nat} (x y : NumReg n)

/-- The common precision is one of the two, and above neither (R110). -/
theorem commonPrecision_cases :
    (commonPrecision x y = x.q ∧ x.q.toNat ≤ y.q.toNat) ∨ (commonPrecision x y = y.q ∧ y.q.toNat < x.q.toNat) := by
  rcases Nat.lt_or_ge y.q.toNat x.q.toNat with hgt | hle
  · exact .inr ⟨commonPrecision_of_gt x y hgt, hgt⟩
  · exact .inl ⟨commonPrecision_of_le x y hle, hle⟩

theorem commonPrecision_self : commonPrecision x x = x.q := commonPrecision_of_le x x le_rfl

/-- The smaller precision does not depend on the order of the operands (R110). -/
theorem commonPrecision_comm : commonPrecision x y = commonPrecision y x := by
  rcases lt_trichotomy x.q.toNat y.q.toNat with hlt | heq | hgt
  · rw [commonPrecision_of_le x y hlt.le, commonPrecision_of_gt y x hlt]
  · rw [commonPrecision_of_le x y heq.le, commonPrecision_of_le y x heq.ge, BitVec.eq_of_toNat_eq heq]
  · rw [commonPrecision_of_gt x y hgt, commonPrecision_of_le y x hgt.le]

end Alignment

section Integers

variable {n : Nat}

/-- Wrapping the signed value of a word gives the word (R6). -/
theorem wrap_toInt (v : BitVec n) : wrap n v.toInt = v := BitVec.ofInt_toInt

/-- A subtraction may start from a wrapped value (R6). -/
theorem wrap_sub_of_wrap (x y : Int) : wrap n ((wrap n x).toInt - y) = wrap n (x - y) := by
  simp only [wrap, sub_eq_add_neg, BitVec.ofInt_add, BitVec.ofInt_toInt]

theorem inRange_zero (n : Nat) : InRange n 0 := by
  have hpos : (0 : Int) < 2 ^ (n - 1) := by positivity
  constructor <;> omega

/-- A power of two up to the sign bit is in range unless it is the sign bit (R6). -/
theorem inRange_two_pow_iff {q : Nat} (hq : q ≤ n - 1) : InRange n (2 ^ q) ↔ q ≠ n - 1 := by
  have hlow : -(2 : Int) ^ (n - 1) ≤ 2 ^ q := (neg_nonpos.mpr (by positivity)).trans (by positivity)
  have hhigh : (2 : Int) ^ q < 2 ^ (n - 1) ↔ q < n - 1 := pow_lt_pow_iff_right₀ (by norm_num)
  rw [InRange, and_iff_right hlow, Int.le_sub_one_iff, hhigh, hq.lt_iff_ne]

/-- A right shift is at most the exact quotient and less than one below it (R8). -/
theorem asr_bounds (z : Int) (k : Nat) : (asr z k : ℚ) ≤ z / 2 ^ k ∧ (z : ℚ) / 2 ^ k < asr z k + 1 := by
  have hfloor : asr z k = ⌊(z : ℚ) / 2 ^ k⌋ := by
    have hcast : (z : ℚ) / 2 ^ k = z / ((2 ^ k : Nat) : ℚ) := by rw [Nat.cast_pow, Nat.cast_ofNat]
    rw [hcast, Rat.floor_intCast_div_natCast, asr, Nat.cast_pow, Nat.cast_ofNat]
  rw [hfloor]
  exact ⟨Int.floor_le _, Int.lt_floor_add_one _⟩

end Integers

section Stores

variable (s : State) (b : Bank) (rd : RegIndex) (z : Int) (p : Precision)

theorem State.storeChecked_reg_same :
    (s.storeChecked b rd z p).reg b rd = { raw := wrap b.width z, q := p, qd := QD p, v := true } :=
  (s.storeChecked_storedIn b rd z p).destination

theorem State.storeChecked_reg_other {c : Bank} {j : RegIndex} (h : ¬(c = b ∧ j = rd)) :
    (s.storeChecked b rd z p).reg c j = s.reg c j :=
  (s.storeChecked_storedIn b rd z p).otherRegisters c j h

end Stores

section Results

variable {b : Bank} {rd ra rb : RegIndex} {s : State} {p : Precision} {x y : Int}
  (hp : p = commonPrecision (s.reg b ra) (s.reg b rb)) (hx : x = alignedTo (s.reg b ra) p)
  (hy : y = alignedTo (s.reg b rb) p) (hv : (s.reg b ra).v = true ∧ (s.reg b rb).v = true)

include hp hx hy hv

/-- `ADD` of constructed sources (R112). -/
theorem exec_add_of_valid : exec (.add b rd ra rb) s = .next (s.storeChecked b rd (x + y) p) := by
  subst hp hx hy
  exact (exec_add ..).trans (withAligned_of_valid hv)

/-- `SUB` of constructed sources (R113). -/
theorem exec_sub_of_valid : exec (.sub b rd ra rb) s = .next (s.storeChecked b rd (x - y) p) := by
  subst hp hx hy
  exact (exec_sub ..).trans (withAligned_of_valid hv)

/-- `MUL` of constructed sources (R115). -/
theorem exec_mul_of_valid : exec (.mul b rd ra rb) s = .next (s.storeChecked b rd (asr (x * y) p.toNat) p) := by
  subst hp hx hy
  exact (exec_mul ..).trans (withAligned_of_valid hv)

end Results

end Sys2Proof.Machine

open Sys2Proof Sys2Proof.Machine

/-- Settles O30: `ALIGN` is the spec's aligned pair, an aligned value stays in range, and the operand whose precision is
the common one is not shifted. -/
theorem alignmentTakesTheSmallerPrecision : Obligations.AlignmentTakesTheSmallerPrecision := by
  intro b x y hxv hyv hx hy
  obtain ⟨hxq, -⟩ := hx hxv
  obtain ⟨hyq, -⟩ := hy hyv
  have hwidth : 0 < b.width := by cases b <;> decide
  rw [align_eq_alignedPair]
  refine ⟨rfl, rfl, rfl, inRange_alignedTo x _, inRange_alignedTo y _, by omega, by omega, ?_⟩
  rcases commonPrecision_cases x y with ⟨hp, _⟩ | ⟨hp, _⟩
  · exact .inl (by rw [hp, alignedTo_own])
  · exact .inr (by rw [hp, alignedTo_own])

/-- Settles O36: the aligned pair is the raw value twice, so the difference is 0 and the scaled quotient `2^q`. -/
theorem sameOperandGivesZeroAndOne : Obligations.SameOperandGivesZeroAndOne := by
  intro b rd r s _ hv hsound
  obtain ⟨hq, -⟩ := hsound hv
  have hp := (commonPrecision_self (s.reg b r)).symm
  have hx := (alignedTo_own (s.reg b r)).symm
  have hzero : (s.reg b r).raw = 0 ↔ (s.reg b r).raw.toInt = 0 := by simp [← BitVec.toInt_inj]
  have hdiv := exec_div_of_valid (rd := rd) hp hx hx ⟨hv, hv⟩
  refine ⟨?_, fun hne => ?_, fun h0 => ?_⟩
  · have hstored := s.storeChecked_storedIn b rd 0 (s.reg b r).q
    have hfits : (¬ InRange b.width 0) = False := eq_false (not_not.mpr (inRange_zero _))
    have hsub := exec_sub_of_valid (rd := rd) hp hx hx ⟨hv, hv⟩
    rw [sub_self] at hsub
    rw [hfits] at hstored
    exact ⟨_, hsub, hstored⟩
  · have hraw : (s.reg b r).raw.toInt ≠ 0 := mt hzero.mpr hne
    have hstored := s.storeChecked_storedIn b rd (2 ^ (s.reg b r).q.toNat) (s.reg b r).q
    have hovf : (¬ InRange b.width (2 ^ (s.reg b r).q.toNat)) = ((s.reg b r).q.toNat = b.width - 1) := by
      rw [inRange_two_pow_iff hq, not_not]
    have hone : wrap b.width (2 ^ (s.reg b r).q.toNat) = BitVec.ofNat b.width (2 ^ (s.reg b r).q.toNat) := by
      rw [wrap, ← BitVec.ofInt_natCast]
      norm_cast
    rw [if_neg hraw, Int.mul_tdiv_cancel_left _ hraw] at hdiv
    rw [hovf, hone] at hstored
    exact ⟨_, hdiv, hstored⟩
  · rwa [if_pos (hzero.mp h0)] at hdiv

/-- Settles O39: the sum has the left precision, so the right operand is aligned to the same value both times, and it
cancels modulo `2^N`. -/
theorem addThenSubtractGivesTheNumberBack : Obligations.AddThenSubtractGivesTheNumberBack := by
  intro b rd ra rb s _ hne hva hvb hle
  obtain ⟨t, hadd, hsum⟩ : ∃ t, exec (.add b rd ra rb) s = .next t ∧ s.StoredIn t b rd _ _ _ :=
    ⟨_, exec_add_of_valid (commonPrecision_of_le _ _ hle).symm (alignedTo_own _).symm rfl ⟨hva, hvb⟩,
      s.storeChecked_storedIn b rd _ _⟩
  have hrd := hsum.destination
  have hrb := hsum.otherRegisters b rb fun ⟨_, h⟩ => hne h.symm
  have hq : (t.reg b rd).q = (s.reg b ra).q := by rw [hrd]
  have hp : (t.reg b rd).q = commonPrecision (t.reg b rd) (t.reg b rb) :=
    (commonPrecision_of_le _ _ (by rwa [hq, hrb])).symm
  have hsub := exec_sub_of_valid (rd := rd) hp (alignedTo_own _).symm rfl ⟨by rw [hrd], by rwa [hrb]⟩
  refine ⟨t, _, hadd, hsub, ?_, ?_⟩
  · rw [State.storeChecked_reg_same, hrb, hq, hrd, wrap_sub_of_wrap, add_sub_cancel_right, wrap_toInt]
  · rw [State.storeChecked_reg_same, hq]

/-- Settles O40: without overflow the stored raw value is the floor of the exact product in units of `2^-q`. -/
theorem mulIsWithinOneUnitBelowTheProduct : Obligations.MulIsWithinOneUnitBelowTheProduct := by
  intro b rd ra rb s t _ hva hvb hq hexec hovf
  have hwidth : 0 < b.width := by cases b <;> decide
  have hmul := exec_mul_of_valid (rd := rd) (commonPrecision_of_le _ _ (by rw [hq])).symm (alignedTo_own _).symm
    (by rw [hq, alignedTo_own]) ⟨hva, hvb⟩
  obtain rfl := Host.Outcome.next.inj (hmul.symm.trans hexec)
  have hfits : InRange b.width (asr ((s.reg b ra).raw.toInt * (s.reg b rb).raw.toInt) (s.reg b ra).q.toNat) := by
    by_contra hout
    have hset := (s.storeChecked_storedIn b rd _ (s.reg b ra).q).overflowFlag.mpr (.inr hout)
    simp [hovf] at hset
  obtain ⟨hbelow, habove⟩ := asr_bounds ((s.reg b ra).raw.toInt * (s.reg b rb).raw.toInt) (s.reg b ra).q.toNat
  have hunit : (0 : ℚ) < 2 ^ (s.reg b ra).q.toNat := by positivity
  have hproduct : (s.reg b ra).number * (s.reg b rb).number =
      ((((s.reg b ra).raw.toInt * (s.reg b rb).raw.toInt : Int) : ℚ) / 2 ^ (s.reg b ra).q.toNat) /
        2 ^ (s.reg b ra).q.toNat := by
    rw [NumReg.number, NumReg.number, ← hq, Int.cast_mul, div_mul_div_comm, div_div]
  rw [State.storeChecked_reg_same, NumReg.number, wrap_toInt_of_inRange hwidth hfits, hproduct, ← add_div]
  exact ⟨by gcongr, by gcongr⟩

end

section
/-! Compound commands (41_alignment_arithmetic.md R119): after `MOV rd, ra` the register `rd` stands in for `ra`, and
what a command stores in `rd` replaces what `MOV` put there. -/

namespace Sys2Proof.Machine

section Stores

variable (s : State) (b : Bank) (rd : RegIndex) (raw raw' : BitVec b.width) (p p' : Precision)

/-- A second write of a register leaves nothing of the first (R25). -/
theorem State.writeReg_writeReg : (s.writeReg b rd raw p).writeReg b rd raw' p' = s.writeReg b rd raw' p' :=
  State.setReg_setReg ..

/-- The overflow flag and the registers are apart (R20). -/
theorem State.checkOverflow_writeReg (n : Nat) (z : Int) :
    (s.writeReg b rd raw p).checkOverflow n z = (s.checkOverflow n z).writeReg b rd raw p := by
  unfold State.checkOverflow
  split
  next => rfl
  next => cases b <;> rfl

/-- A checked store leaves nothing of a write before it (R10, R25). -/
theorem State.storeChecked_writeReg (z : Int) :
    (s.writeReg b rd raw p).storeChecked b rd z p' = s.storeChecked b rd z p' := by
  rw [State.storeChecked, State.checkOverflow_writeReg, State.writeReg_writeReg, State.storeChecked]

end Stores

section Compound

variable {b : Bank} {rd ra rb : RegIndex} {s t : State} (hne : rd ≠ rb)
  (hdone : t.status.fault = false)

include hne hdone

/-- A rule on aligned sources that completes, and that does not see what its destination held, may find its left operand
in the destination (R119). -/
theorem mov_then_withAligned {rule : State → Aligned → Result}
    (hrule : ∀ v raw p, rule s v = .next t → rule (s.writeReg b rd raw p) v = .next t)
    (hexec : withAligned s b ra rb (rule s) = .next t) :
    ∃ m, exec (.mov b rd ra) s = .next m ∧ withAligned m b rd rb (rule m) = .next t := by
  by_cases hv : (s.reg b ra).v = true ∧ (s.reg b rb).v = true
  · obtain ⟨hva, hvb⟩ := hv
    have hrb : (s.writeReg b rd (s.reg b ra).raw (s.reg b ra).q).reg b rb = s.reg b rb :=
      s.reg_writeReg_other b b rd rb _ _ fun ⟨_, h⟩ => hne h.symm
    have hpair : alignedPair ((s.writeReg b rd (s.reg b ra).raw (s.reg b ra).q).reg b rd)
        ((s.writeReg b rd (s.reg b ra).raw (s.reg b ra).q).reg b rb) = alignedPair (s.reg b ra) (s.reg b rb) := by
      rw [hrb, State.reg_writeReg_same]
      rfl
    rw [withAligned_of_valid ⟨hva, hvb⟩] at hexec
    refine ⟨_, (exec_mov ..).trans (withSource_of_valid hva), ?_⟩
    rw [withAligned_of_valid ⟨by simp, by rwa [hrb]⟩, hpair]
    exact hrule _ _ _ hexec
  · obtain rfl := Host.Outcome.next.inj ((withAligned_of_not_valid hv).symm.trans hexec)
    simp [State.afterFault] at hdone

/-- `ADD`, `SUB` and `MUL` store with overflow check whatever their operands are (R117). -/
theorem mov_then_storeChecked (f : Aligned → Int)
    (hexec : withAligned s b ra rb (fun v => .next (s.storeChecked b rd (f v) v.qc)) = .next t) :
    ∃ m, exec (.mov b rd ra) s = .next m ∧
      withAligned m b rd rb (fun v => .next (m.storeChecked b rd (f v) v.qc)) = .next t :=
  mov_then_withAligned (rule := fun u v => .next (u.storeChecked b rd (f v) v.qc)) hne hdone
    (fun v raw p h => by rwa [State.storeChecked_writeReg]) hexec

omit hne in
/-- A zero divisor does not complete, so a rule behind the test for one decides alone (R121). -/
theorem unlessZero_completes {u u' : State} {z : Int} {rule rule' : Result}
    (h : rule = .next t → rule' = .next t)
    (hexec : (if z = 0 then .next (u.raise .divideByZero) else rule) = .next t) :
    (if z = 0 then .next (u'.raise .divideByZero) else rule') = .next t := by
  split at hexec
  next =>
    obtain rfl := Host.Outcome.next.inj hexec
    simp at hdone
  next hz => rw [if_neg hz, h hexec]

end Compound

end Sys2Proof.Machine

open Sys2Proof Sys2Proof.Machine

/-- Settles O38: the five rules store a result, behind a zero test or not, in the register that `MOV` wrote. -/
theorem commandIsMovThenCompound : Obligations.CommandIsMovThenCompound := by
  intro op hop b rd ra rb s t _ hne hexec hdone
  simp only [List.mem_cons, List.not_mem_nil, or_false] at hop
  rcases hop with rfl | rfl | rfl | rfl | rfl
  · exact mov_then_storeChecked hne hdone (fun v => v.a + v.b) hexec
  · exact mov_then_storeChecked hne hdone (fun v => v.a - v.b) hexec
  · exact mov_then_storeChecked hne hdone (fun v => asr (v.a * v.b) v.qc.toNat) hexec
  · simp only [exec_div] at hexec ⊢
    refine mov_then_withAligned hne hdone (fun v raw p => ?_) hexec
    exact unlessZero_completes hdone fun h => by rwa [State.storeChecked_writeReg]
  · simp only [exec_rem] at hexec ⊢
    refine mov_then_withAligned hne hdone (fun v raw p => ?_) hexec
    exact unlessZero_completes hdone fun h => by rwa [State.writeReg_writeReg]

end

section
/-! The laws of the comparisons (42_comparison.md R148): on constructed registers each is a relation of two integers. -/

namespace Sys2Proof.Machine

/-- The content of `Y` after a command that writes it (R28). -/
theorem yAfter_of_exec {i : Instr} {s : State} {v : PortWord} (h : exec i s = .next (s.afterY v)) :
    yAfter i s = some v := by
  rw [yAfter, h]
  rfl

/-- Exchanged operands are aligned to the same values, exchanged (R110). -/
theorem alignedPair_swap {n : Nat} (x y : NumReg n) :
    (alignedPair y x).a = (alignedPair x y).b ∧ (alignedPair y x).b = (alignedPair x y).a := by
  simp only [alignedPair, commonPrecision_comm y x, and_self]

section Values

variable {b : Bank} {ra rb : RegIndex} {s : State} (hv : (s.reg b ra).v = true ∧ (s.reg b rb).v = true)

include hv

theorem yAfter_eq : yAfter (.eq b ra rb) s =
    some (if (alignedPair (s.reg b ra) (s.reg b rb)).a = (alignedPair (s.reg b ra) (s.reg b rb)).b then 1 else 0) :=
  yAfter_of_exec ((exec_eq ..).trans (withAligned_of_valid hv))

theorem yAfter_ne : yAfter (.ne b ra rb) s =
    some (if (alignedPair (s.reg b ra) (s.reg b rb)).a = (alignedPair (s.reg b ra) (s.reg b rb)).b then 0 else 1) :=
  yAfter_of_exec ((exec_ne ..).trans (withAligned_of_valid hv))

theorem yAfter_lt : yAfter (.lt b ra rb) s =
    some (if (alignedPair (s.reg b ra) (s.reg b rb)).a < (alignedPair (s.reg b ra) (s.reg b rb)).b then 1 else 0) :=
  yAfter_of_exec ((exec_lt ..).trans (withAligned_of_valid hv))

theorem yAfter_gt : yAfter (.gt b ra rb) s =
    some (if (alignedPair (s.reg b ra) (s.reg b rb)).b < (alignedPair (s.reg b ra) (s.reg b rb)).a then 1 else 0) :=
  yAfter_of_exec ((exec_gt ..).trans (withAligned_of_valid hv))

theorem yAfter_le : yAfter (.le b ra rb) s =
    some (if (alignedPair (s.reg b ra) (s.reg b rb)).a ≤ (alignedPair (s.reg b ra) (s.reg b rb)).b then 1 else 0) :=
  yAfter_of_exec ((exec_le ..).trans (withAligned_of_valid hv))

theorem yAfter_ge : yAfter (.ge b ra rb) s =
    some (if (alignedPair (s.reg b ra) (s.reg b rb)).b ≤ (alignedPair (s.reg b ra) (s.reg b rb)).a then 1 else 0) :=
  yAfter_of_exec ((exec_ge ..).trans (withAligned_of_valid hv))

end Values

/-- Bank W with 1 at precision 0 in `w0`, and 1 and 3/2 at precision 1 in `w1` and `w2`: apart at precision 1, the same
at precision 0. -/
def apartByHalf : State :=
  ((State.reset.writeReg .W 0 1 0).writeReg .W 1 2 1).writeReg .W 2 3 1

end Sys2Proof.Machine

open Sys2Proof Sys2Proof.Machine

/-- Settles O43: the order of the two aligned values decides all six comparisons, and exchanging the operands exchanges
the values. -/
theorem comparisonLaws : Obligations.ComparisonLaws := by
  intro b ra rb s hva hvb
  obtain ⟨hswap, hswap'⟩ := alignedPair_swap (s.reg b ra) (s.reg b rb)
  have hself : yAfter (.eq b ra ra) s = some 1 := (yAfter_eq ⟨hva, hva⟩).trans (congrArg some (if_pos rfl))
  rw [hself, yAfter_eq ⟨hvb, hva⟩, yAfter_gt ⟨hvb, hva⟩, hswap, hswap', yAfter_eq ⟨hva, hvb⟩, yAfter_ne ⟨hva, hvb⟩,
    yAfter_lt ⟨hva, hvb⟩, yAfter_gt ⟨hva, hvb⟩, yAfter_le ⟨hva, hvb⟩, yAfter_ge ⟨hva, hvb⟩]
  generalize (alignedPair (s.reg b ra) (s.reg b rb)).a = x, (alignedPair (s.reg b ra) (s.reg b rb)).b = y
  rcases lt_trichotomy x y with hlt | rfl | hgt
  · simp [hlt, hlt.ne, hlt.ne', hlt.le, hlt.not_gt, hlt.not_ge]
  · simp
  · simp [hgt, hgt.ne, hgt.ne', hgt.le, hgt.not_gt, hgt.not_ge]

/-- Settles O44: `w1` and `w2` each equal `w0` at precision 0, and differ from each other at precision 1. -/
theorem equalityIsNotTransitive : Obligations.EqualityIsNotTransitive :=
  ⟨apartByHalf, 0, 1, 2, by decide⟩

end

section
/-! `TOINT` and `FRAC` together (43_conversion.md R157, R158): the floor and the fraction they read off a register are
the two parts of its number. -/

namespace Sys2Proof.Machine

/-- A number is its floor and its fractional bits at their place (R7). -/
theorem NumReg.number_eq_floor_add_fraction {n : Nat} (x : NumReg n) (hq : x.q.toNat ≤ n) :
    x.number = ⌊x.number⌋ + (x.fraction : ℚ) / 2 ^ x.q.toNat := by
  have hraw : x.raw.toInt = asr x.raw.toInt x.q.toNat * 2 ^ x.q.toNat + (x.fraction : Int) := by
    rw [x.fraction_eq hq, asr, add_sub_cancel]
  have hunit : (2 : ℚ) ^ x.q.toNat ≠ 0 := by positivity
  rw [← asr_raw_eq_floor_number, NumReg.number, div_eq_iff hunit, add_mul, div_mul_cancel₀ _ hunit]
  exact_mod_cast hraw

end Sys2Proof.Machine

open Sys2Proof Sys2Proof.Machine

/-- Settles O47: the number scaled by `10^d` is an integer more than its scaled fraction, and the digits are that
fraction rounded half up. -/
theorem tointAndFracAreTheRoundedNumber : Obligations.TointAndFracAreTheRoundedNumber := by
  rintro b ra s _ hrun hv hsound rfl hd
  obtain ⟨hq, -⟩ := hsound hv
  have htoint := tointWritesTheFloor.2 b ra s hrun
  rw [if_pos hv] at htoint
  obtain ⟨y, hexecInt, hy, -⟩ := htoint
  obtain ⟨z, hexecFrac, hz⟩ := exec_frac_of_valid hv hsound
  have hparts : (s.reg b ra).number * 10 ^ (QD (s.reg b ra).q).toNat + 1 / 2 =
      ((⌊(s.reg b ra).number⌋ * 10 ^ (QD (s.reg b ra).q).toNat : Int) : ℚ) +
        ((s.reg b ra).fraction / 2 ^ (s.reg b ra).q.toNat * 10 ^ (QD (s.reg b ra).q).toNat + 1 / 2) := by
    conv_lhs => rw [(s.reg b ra).number_eq_floor_add_fraction (by omega)]
    push_cast
    ring
  exact ⟨y, z, hexecInt, hexecFrac, by rw [hy, hz, fracDigits_eq_floor hd, hparts, Int.floor_intCast_add]⟩

end

section
/-! `TOF64` and the way back (43_conversion.md R161, 40_construction.md R94): a number of at most 53 bits fills a
significand without rounding, so the pattern stands for the number itself, and `FROMF64` has nothing to truncate. -/

namespace Sys2Proof.Machine

/-- A magnitude of at most `p` bits is scaled to its significand without rounding or carry (R163). -/
theorem significand_of_log2_lt {p mag : Nat} (h : mag.log2 < p) :
    significand p mag = mag * 2 ^ (p - 1 - mag.log2) ∧ significand p mag ≠ 2 ^ p := by
  have hexact : significand p mag = mag * 2 ^ (p - 1 - mag.log2) := if_pos h
  have hbits : 2 ^ p = 2 ^ (mag.log2 + 1) * 2 ^ (p - 1 - mag.log2) := by
    rw [← pow_add]
    congr 1
    omega
  have hlt : mag * 2 ^ (p - 1 - mag.log2) < 2 ^ p :=
    hbits ▸ Nat.mul_lt_mul_of_pos_right Nat.lt_log2_self (by positivity)
  exact ⟨hexact, hexact ▸ hlt.ne⟩

/-- The number of a pattern with the exponent of a normal number (R95). -/
theorem float64Number_of_normal {y : BitVec 64} (hlow : (y.extractLsb' 52 11).toNat ≠ 0)
    (hhigh : (y.extractLsb' 52 11).toNat ≠ 2047) :
    float64Number y = some ((if y.getLsbD 63 then (-1 : ℚ) else 1) * (2 ^ 52 + (y.extractLsb' 0 52).toNat) *
      2 ^ (((y.extractLsb' 52 11).toNat : ℤ) - 1075)) := by
  simp only [float64Number, hlow, hhigh, if_false]

/-- A sign and a magnitude make the integer (R163). -/
theorem sign_mul_natAbs (raw : Int) : (if decide (raw < 0) then (-1 : ℚ) else 1) * raw.natAbs = raw := by
  rw [Nat.cast_natAbs, Int.cast_abs]
  split
  next hneg => rw [abs_of_neg (by exact_mod_cast of_decide_eq_true hneg), neg_one_mul, neg_neg]
  next hpos => rw [abs_of_nonneg (by simpa using hpos), one_mul]

/-- A quotient of at most 53 bits is the number of its own binary64 pattern (R161, R163). -/
theorem float64Number_fround {raw : Int} {q : Nat} (hraw : raw ≠ 0) (hq : q < 64) (hbits : raw.natAbs.log2 < 53) :
    float64Number (fround binary64 raw q) = some ((raw : ℚ) / 2 ^ q) := by
  obtain ⟨hexact, hcarry⟩ := significand_of_log2_lt hbits
  obtain ⟨hsign, hfields⟩ := fround_fields binary64_hasLayout hraw (q := q) (by simp only; omega) (by simp only; omega)
  rw [if_neg hcarry, hexact] at hfields
  obtain ⟨hexp, hfrac⟩ : (((fround binary64 raw q).extractLsb' 52 11).toNat : Int) = raw.natAbs.log2 - q + 1023 ∧
    raw.natAbs * 2 ^ (52 - raw.natAbs.log2) = 2 ^ 52 + ((fround binary64 raw q).extractLsb' 0 52).toNat := hfields
  have hsignificand : (2 : ℚ) ^ 52 + ((fround binary64 raw q).extractLsb' 0 52).toNat =
      raw.natAbs * 2 ^ (52 - raw.natAbs.log2) := by exact_mod_cast hfrac.symm
  rw [float64Number_of_normal (by omega) (by omega), hsign, hsignificand, hexp]
  have hscale : (2 : ℚ) ^ (52 - raw.natAbs.log2) * 2 ^ ((raw.natAbs.log2 : ℤ) - q + 1023 - 1075) = (2 ^ q)⁻¹ := by
    have hexponents : ((52 - raw.natAbs.log2 : Nat) : ℤ) + ((raw.natAbs.log2 : ℤ) - q + 1023 - 1075) = -q := by omega
    rw [← zpow_natCast, ← zpow_add₀ two_ne_zero, hexponents, zpow_neg, zpow_natCast]
  rw [mul_assoc, mul_assoc (raw.natAbs : ℚ), hscale, ← mul_assoc, sign_mul_natAbs, div_eq_mul_inv]

/-- The number of zero is that of the zero pattern (R95, R163). -/
theorem float64Number_fround_zero (q : Nat) : float64Number (fround binary64 0 q) = some 0 := by
  simp [fround_zero, float64Number]

/-- Truncation leaves an integer as it is (R94). -/
theorem truncateRational_intCast (z : Int) : truncateRational z = z := by
  rw [truncateRational]
  split
  next => exact Int.floor_intCast z
  next => rw [← Int.cast_neg, Int.floor_intCast, neg_neg]

/-- A number of bank W is the number of its own binary64 pattern (R161). -/
theorem float64Number_fround_number (x : NumReg Bank.W.width) :
    float64Number (fround binary64 x.raw.toInt x.q.toNat) = some x.number := by
  by_cases hraw : x.raw.toInt = 0
  · rw [NumReg.number, hraw, float64Number_fround_zero, Int.cast_zero, zero_div]
  · refine float64Number_fround hraw x.q.isLt ?_
    have hmag := abs_le_of_inRange (inRange_toInt x.raw)
    have hbits : (2 : Int) ^ (Bank.W.width - 1) < 2 ^ 53 := by decide
    rw [Int.abs_eq_natAbs] at hmag
    rw [Nat.log2_lt (Int.natAbs_ne_zero.mpr hraw)]
    exact_mod_cast hmag.trans_lt hbits

end Sys2Proof.Machine

open Sys2Proof Sys2Proof.Machine

/-- Settles O52: a number of bank W has at most 32 bits, so its pattern stands for it, and truncating the pattern's
number scaled by `2^q` is the raw value. -/
theorem binary64RoundTripInBankW : Obligations.Binary64RoundTripInBankW := by
  intro rd ra s _ hv hsound
  obtain ⟨hq, -⟩ := hsound hv
  have hnum := float64Number_fround_number (s.reg .W ra)
  refine ⟨_, (exec_tof64 ..).trans (withSource_of_valid hv), hnum, fun u _ hport => ?_⟩
  have hscaled : truncateRational ((s.reg .W ra).number * 2 ^ (s.reg .W ra).q.toNat) = (s.reg .W ra).raw.toInt := by
    rw [NumReg.number, div_mul_cancel₀ _ (by positivity), truncateRational_intCast]
  have hback := exec_fromf64_of_some (rd := rd) hq (hport ▸ hnum)
  rw [hscaled, if_pos (inRange_toInt _), wrap_toInt] at hback
  exact ⟨_, hback, u.writeReg_storedIn .W rd _ _⟩

end

section
/-! Closed facts: the words the spec writes out (30_encoding.md R78), the powers of ten (20_memory.md R52), and the
layout of `STATUS` (10_state.md R29). -/

namespace Sys2Proof

/-- The bits of a concatenation above its low part. -/
theorem getLsbD_append_hi {m n : Nat} (a : BitVec m) (b : BitVec n) (k : Nat) :
    (a ++ b).getLsbD (n + k) = a.getLsbD k := by
  simp [BitVec.getLsbD_append]

/-- The lowest bit of a concatenation that ends in a flag. -/
theorem getLsbD_append_ofBool {m : Nat} (a : BitVec m) (p : Bool) : (a ++ BitVec.ofBool p).getLsbD 0 = p := by
  rw [BitVec.getLsbD_append]
  simp

end Sys2Proof

open Sys2Proof Sys2Proof.Machine

/-- Settles O4: the decoder evaluated on eight words. -/
theorem specsExampleWordsDecode : Obligations.SpecsExampleWordsDecode := by
  unfold Obligations.SpecsExampleWordsDecode
  decide

/-- Settles O54: the formula evaluated at ten indices. -/
theorem powerTableHoldsThePowersOfTen : Obligations.PowerTableHoldsThePowersOfTen := by
  unfold Obligations.PowerTableHoldsThePowersOfTen
  decide

/-- Settles O55: each field is read back from its place in the concatenation that is the word. -/
theorem statusWordLayout : Obligations.StatusWordLayout := by
  intro s
  obtain ⟨fault, cause, ovf, yv⟩ := s.status
  refine ⟨getLsbD_append_ofBool _ fault, ?_, ?_, ?_, ?_⟩
  · exact (extract_append_hi (n := 1) _ _ 0 3).trans (extract_append_lo _ cause)
  · exact (getLsbD_append_hi (n := 1) _ _ 3).trans <| (getLsbD_append_hi (n := 3) _ _ 0).trans <|
      getLsbD_append_ofBool _ ovf
  · exact (getLsbD_append_hi (n := 1) _ _ 4).trans <| (getLsbD_append_hi (n := 3) _ _ 1).trans <|
      (getLsbD_append_hi (n := 1) _ _ 0).trans (getLsbD_append_ofBool _ yv)
  · exact (extract_append_hi (n := 1) _ _ 5 26).trans <| (extract_append_hi (n := 3) _ _ 2 26).trans <|
      (extract_append_hi (n := 1) _ _ 1 26).trans <| (extract_append_hi (n := 1) _ _ 0 26).trans (by simp)

end
